-- ==== Sys2Proof/Word.lean ====
section
/-! DEFINITION. The value types of 00_scope.md R9: a byte, and a byte string. -/

namespace Sys2Proof

/-- A byte: an 8-bit unsigned integer (R9). -/
abbrev Byte := BitVec 8

/-- A byte string: a finite sequence of bytes, possibly empty, first byte first (R9). -/
abbrev Bytes := List Byte

end Sys2Proof
end

