-- ==== Sys2Proof/Machine/Operands.lean ====
section
/-! DEFINITION. Byte order and operand access: the little-endian helpers of 00_scope.md R11 and the indexing and slicing of R9. -/

namespace Sys2Proof.Machine

/-- `xs[i]`, counted from 0 (R9). Past the end it answers 0; no rule reads there. -/
def byteAt (xs : Bytes) (i : Nat) : Byte := xs.getD i 0

/-- `xs[a:b]` (R9): the bytes at indices `a` to `b-1`, empty when `a >= b`. -/
def slice (xs : Bytes) (a b : Nat) : Bytes := (xs.drop a).take (b - a)

/-- `le16(v) = [v[7:0], v[15:8]]` (R11). -/
def le16 (v : BitVec 16) : Bytes := [v.extractLsb' 0 8, v.extractLsb' 8 8]

/-- `le32(v) = [v[7:0], v[15:8], v[23:16], v[31:24]]` (R11). -/
def le32 (v : BitVec 32) : Bytes :=
  [v.extractLsb' 0 8, v.extractLsb' 8 8, v.extractLsb' 16 8, v.extractLsb' 24 8]

/-- `rd16(xs, o) = xs[o] | (xs[o+1] << 8)` (R11). -/
def rd16 (xs : Bytes) (o : Nat) : BitVec 16 :=
  (byteAt xs o).setWidth 16 ||| ((byteAt xs (o + 1)).setWidth 16 <<< 8)

/-- `rd32(xs, o) = xs[o] | (xs[o+1] << 8) | (xs[o+2] << 16) | (xs[o+3] << 24)` (R11). -/
def rd32 (xs : Bytes) (o : Nat) : BitVec 32 :=
  (byteAt xs o).setWidth 32 ||| ((byteAt xs (o + 1)).setWidth 32 <<< 8)
    ||| ((byteAt xs (o + 2)).setWidth 32 <<< 16) ||| ((byteAt xs (o + 3)).setWidth 32 <<< 24)

end Sys2Proof.Machine
end

