-- ==== Sys2Proof/Config.lean ====
section
/-! DEFINITION. The parameters of 00_scope.md R7 whose value is fixed for this hardware, and the one free value of the model. The
parameters of R7 that are widths are types: CRC_WIDTH is the 16 of `BitVec 16`, MAX_ACCUM and LEN the 32 of `BitVec 32`; NUM_READERS
= 1 is State's one `acc`. The OPEN parameter ACC_CAPACITY is not here: State holds it, so that every statement holds for every
capacity (log 4). -/

namespace Sys2Proof

/-- The two forms of the COBS encoder on a last segment that ends on a full group (R110, D8). -/
inductive FinalFullGroup where
  /-- No `01` group follows the final full group (the spec's `Omit`). -/
  | omitted
  /-- A `01` group follows the final full group (the spec's `Emit`). -/
  | emitted
  deriving DecidableEq, Repr

namespace Config

/-- HDR_LEN: the header is 16 bytes. -/
def hdrLen : Nat := 16

/-- MAGIC: the header's `magic` constant. -/
def magic : BitVec 16 := 0xA15A

/-- MDP_VERSION: the header's `version` constant. -/
def mdpVersion : Byte := 1

/-- CRC_POLY. -/
def crcPoly : BitVec 16 := 0x1021

/-- CRC_INIT. -/
def crcInit : BitVec 16 := 0xFFFF

/-- CRC_XOROUT: zero, so the CRC has no final XOR. -/
def crcXorOut : BitVec 16 := 0x0000

/-- CRC_LEN: bytes of the CRC on the wire. -/
def crcLen : Nat := 2

/-- COBS_DELIM: the delimiter that ends every wire frame. -/
def cobsDelim : Byte := 0x00

/-- COBS_MAX_RUN: the most non-zero bytes in one group. -/
def cobsMaxRun : Nat := 254

/-- MAX_BODY: the most body bytes FRAME_ENC accepts. -/
def maxBody : Nat := 65535

/-- COBS_FINAL_FULL_GROUP for this hardware: `Omit`. -/
def cobsFinalFullGroup : FinalFullGroup := .omitted

/-- FREE VALUE (log 5, DESIGN CHOICE): what stands in the 32-bit length field of a response whose byte string has 2^32 bytes or
more. R11 defines `le32` on u32 values only, and R86 and R87 put `le32(len(out))` there. It has no body: nothing can be proved
of it. It is a function of the byte string, so that a pure command answers the same twice (R46). -/
opaque overlongLength : Bytes → BitVec 32

end Config
end Sys2Proof
end

