-- ==== Sys2Proof/Syntax.lean ====
section
/-! DEFINITION. The twelve typed commands of 30_encoding.md R79, one constructor of `Instr` for each row of the opcode table, and
the record formats of R80. -/

namespace Sys2Proof

/-- The nine header fields (00_scope.md R13, 30_encoding.md R60). -/
structure Header where
  magic    : BitVec 16
  version  : Byte
  type     : Byte
  seq      : BitVec 32
  ack      : BitVec 32
  flags    : Byte
  src      : Byte
  dst      : Byte
  reserved : Byte
  deriving DecidableEq, Repr

/-- A typed command (R79). A byte-string operand has at most 2^32-1 bytes and HDR_UNPACK's has 16: `Instr.wellFormed`. -/
inductive Instr where
  /-- CRC16 (R102): the CRC of a byte string. -/
  | crc16 (data : Bytes)
  /-- COBS_ENC (R111): COBS-encode a byte string. -/
  | cobsEnc (data : Bytes)
  /-- COBS_DEC (R113): decode COBS bytes that carry no trailing delimiter. -/
  | cobsDec (data : Bytes)
  /-- HDR_PACK (R131): pack nine header fields. -/
  | hdrPack (h : Header)
  /-- HDR_UNPACK (R133): unpack 16 bytes. -/
  | hdrUnpack (v : Bytes)
  /-- FRAME_ENC (R141): assemble one wire frame. -/
  | frameEnc (type : Byte) (seq ack : BitVec 32) (flags src dst : Byte) (body : Bytes)
  /-- FRAME_DEC (R151): decode one candidate wire frame, delimiter included. -/
  | frameDec (wire : Bytes)
  /-- FEED (R154): give transport bytes to the stream reader. -/
  | feed (data : Bytes)
  /-- RDR_CLEAR (R170): empty the reader's buffer. -/
  | rdrClear
  /-- MAXACC_WR (R171): write MAX_ACCUM. -/
  | maxaccWr (value : BitVec 32)
  /-- MAXACC_RD (R172): read MAX_ACCUM. -/
  | maxaccRd
  /-- STATUS_RD (R173): read ACC_LEN. -/
  | statusRd
  deriving DecidableEq, Repr

/-- The mnemonics of R82, without operands. -/
inductive Op where
  | crc16 | cobsEnc | cobsDec | hdrPack | hdrUnpack | frameEnc | frameDec | feed | rdrClear | maxaccWr | maxaccRd | statusRd
  deriving DecidableEq, Repr

/-- The record formats of R80. -/
inductive Format where
  | n | b | h | v | f | w
  deriving DecidableEq, Repr

/-- The mnemonic of a typed command. -/
def Instr.op : Instr → Op
  | .crc16 _ => .crc16
  | .cobsEnc _ => .cobsEnc
  | .cobsDec _ => .cobsDec
  | .hdrPack _ => .hdrPack
  | .hdrUnpack _ => .hdrUnpack
  | .frameEnc _ _ _ _ _ _ _ => .frameEnc
  | .frameDec _ => .frameDec
  | .feed _ => .feed
  | .rdrClear => .rdrClear
  | .maxaccWr _ => .maxaccWr
  | .maxaccRd => .maxaccRd
  | .statusRd => .statusRd

end Sys2Proof
end

