-- ==== Sys2Proof/WellFormed.lean ====
section
/-! DEFINITION. Which typed commands a record can carry (30_encoding.md R79, R80; 20_memory.md R43): byte strings of at most
2^32-1 bytes (the LEN field is a u32), and exactly 16 bytes for HDR_UNPACK. -/

namespace Sys2Proof

/-- A byte string whose length fits the u32 LEN field (R80, D29). -/
def fitsLength (data : Bytes) : Bool := data.length < 2 ^ 32

/-- The checks on a typed command's operands. -/
def Instr.wellFormed : Instr → Bool
  | .crc16 data => fitsLength data
  | .cobsEnc data => fitsLength data
  | .cobsDec data => fitsLength data
  | .hdrPack _ => true
  | .hdrUnpack v => v.length == Config.hdrLen
  | .frameEnc _ _ _ _ _ _ body => fitsLength body
  | .frameDec wire => fitsLength wire
  | .feed data => fitsLength data
  | .rdrClear => true
  | .maxaccWr _ => true
  | .maxaccRd => true
  | .statusRd => true

/-- A command some record carries. -/
abbrev Instr.WellFormed (i : Instr) : Prop := i.wellFormed = true

end Sys2Proof
end

