-- ==== Sys2Proof/Decode.lean ====
section
/-! DEFINITION. Command records (30_encoding.md Part B): the opcode map of R82, total decode of R83 with the operand assembly of
R81, and the encoder written from the formats of R80. -/

namespace Sys2Proof

open Sys2Proof.Machine

/-- One row of the opcode map (R82): byte 0 under `mask` equals `code`. -/
structure OpRow where
  code   : Byte
  mask   : Byte
  op     : Op
  format : Format
  deriving DecidableEq, Repr

/-- Why a record is illegal (R84). -/
inductive Illegal where
  /-- The record has no byte 0. -/
  | emptyRecord
  /-- Byte 0 is 0x00 or 0x0D..0xFF. -/
  | reservedOp (op : Byte)
  /-- The record's length does not match the format of its OP. -/
  | wrongLength (op : Op)
  deriving DecidableEq, Repr

/-- What a record decodes to: exactly one typed command, or illegal (R83). -/
inductive Decoded where
  | command (i : Instr)
  | illegal (why : Illegal)
  deriving DecidableEq, Repr

/-- The opcode map (R82): the whole of byte 0 selects the command. -/
def opTable : List OpRow :=
  [ ⟨0x01, 0xFF, .crc16, .b⟩,
    ⟨0x02, 0xFF, .cobsEnc, .b⟩,
    ⟨0x03, 0xFF, .cobsDec, .b⟩,
    ⟨0x04, 0xFF, .hdrPack, .h⟩,
    ⟨0x05, 0xFF, .hdrUnpack, .v⟩,
    ⟨0x06, 0xFF, .frameEnc, .f⟩,
    ⟨0x07, 0xFF, .frameDec, .b⟩,
    ⟨0x08, 0xFF, .feed, .b⟩,
    ⟨0x09, 0xFF, .rdrClear, .n⟩,
    ⟨0x0A, 0xFF, .maxaccWr, .w⟩,
    ⟨0x0B, 0xFF, .maxaccRd, .n⟩,
    ⟨0x0C, 0xFF, .statusRd, .n⟩ ]

/-- The row byte 0 selects, none for a reserved OP (R82, R84). -/
def rowOf (b : Byte) : Option OpRow := opTable.find? fun r => b &&& r.mask == r.code

/-- The length test of R83 for each format. -/
def lengthMatches (fmt : Format) (bytes : Bytes) : Bool :=
  match fmt with
  | .n => bytes.length == 1
  | .w => bytes.length == 5
  | .h => bytes.length == 17
  | .v => bytes.length == 17
  | .b => 5 ≤ bytes.length && bytes.length == 5 + (rd32 bytes 1).toNat
  | .f => 17 ≤ bytes.length && bytes.length == 17 + (rd32 bytes 13).toNat

/-- The DATA operand of format B (R81): `rec[5 : 5+LEN]`. -/
def dataOperand (bytes : Bytes) : Bytes := slice bytes 5 (5 + (rd32 bytes 1).toNat)

/-- The header operand of format H (R80, R81). -/
def headerOperand (bytes : Bytes) : Header :=
  { magic := rd16 bytes 1, version := byteAt bytes 3, type := byteAt bytes 4, seq := rd32 bytes 5,
    ack := rd32 bytes 9, flags := byteAt bytes 13, src := byteAt bytes 14, dst := byteAt bytes 15,
    reserved := byteAt bytes 16 }

/-- Operand assembly (R81) for each command, at the offsets of its format (R80). -/
def assembleOperands (op : Op) (bytes : Bytes) : Instr :=
  match op with
  | .crc16 => .crc16 (dataOperand bytes)
  | .cobsEnc => .cobsEnc (dataOperand bytes)
  | .cobsDec => .cobsDec (dataOperand bytes)
  | .hdrPack => .hdrPack (headerOperand bytes)
  | .hdrUnpack => .hdrUnpack (slice bytes 1 17)
  | .frameEnc =>
    .frameEnc (byteAt bytes 1) (rd32 bytes 2) (rd32 bytes 6) (byteAt bytes 10) (byteAt bytes 11) (byteAt bytes 12)
      (slice bytes 17 (17 + (rd32 bytes 13).toNat))
  | .frameDec => .frameDec (dataOperand bytes)
  | .feed => .feed (dataOperand bytes)
  | .rdrClear => .rdrClear
  | .maxaccWr => .maxaccWr (rd32 bytes 1)
  | .maxaccRd => .maxaccRd
  | .statusRd => .statusRd

/-- Record decode (R83), total: every byte string is one typed command or illegal. -/
def decode (bytes : Bytes) : Decoded :=
  match bytes with
  | [] => .illegal .emptyRecord
  | b :: _ =>
    match rowOf b with
    | none => .illegal (.reservedOp b)
    | some row =>
      if lengthMatches row.format bytes then .command (assembleOperands row.op bytes)
      else .illegal (.wrongLength row.op)

/-- `LEN` then the byte string, the tail of formats B and F (R80). -/
def lengthPrefixed (data : Bytes) : Bytes := le32 (BitVec.ofNat 32 data.length) ++ data

/-- The record of a typed command (R80, R82). -/
def encode : Instr → Bytes
  | .crc16 data => 0x01 :: lengthPrefixed data
  | .cobsEnc data => 0x02 :: lengthPrefixed data
  | .cobsDec data => 0x03 :: lengthPrefixed data
  | .hdrPack h =>
    0x04 :: (le16 h.magic ++ [h.version, h.type] ++ le32 h.seq ++ le32 h.ack ++ [h.flags, h.src, h.dst, h.reserved])
  | .hdrUnpack v => 0x05 :: v
  | .frameEnc type seq ack flags src dst body =>
    0x06 :: type :: (le32 seq ++ le32 ack ++ [flags, src, dst] ++ lengthPrefixed body)
  | .frameDec wire => 0x07 :: lengthPrefixed wire
  | .feed data => 0x08 :: lengthPrefixed data
  | .rdrClear => [0x09]
  | .maxaccWr value => 0x0A :: le32 value
  | .maxaccRd => [0x0B]
  | .statusRd => [0x0C]

/-- How many bytes a record of this format has when it begins with `bytes` (R80). -/
def recordLength (fmt : Format) (bytes : Bytes) : Nat :=
  match fmt with
  | .n => 1
  | .w => 5
  | .h => 17
  | .v => 17
  | .b => 5 + (rd32 bytes 1).toNat
  | .f => 17 + (rd32 bytes 13).toNat

/-- The record the opcode table's bits stand for (log 8): byte `k` of the record is bits `8k+7 .. 8k` of `w`, for the `nbits` bits
the table gives; every operand byte above them is zero, up to the length its format asks for. -/
def tableRecord (nbits w : Nat) : Bytes :=
  let given : Bytes := (List.range ((nbits + 7) / 8)).map fun k => BitVec.ofNat 8 (w >>> (8 * k))
  match rowOf (byteAt given 0) with
  | none => given
  | some row => given ++ List.replicate (recordLength row.format given - given.length) 0

/-- The command the decoder reads from the opcode table's bits. -/
def decodeTableWord (nbits w : Nat) : Option Instr :=
  match decode (tableRecord nbits w) with
  | .command i => some i
  | .illegal _ => none

end Sys2Proof
end

