-- ==== Sys2Proof/Machine/State.lean ====
section
/-! DEFINITION. The state of one block instance as plain data (10_state.md R34), what the host interface holds beside it, the
reasons a step can stop, and the state after reset. -/

namespace Sys2Proof.Machine

/-- Something the host does to the block (log 1). -/
inductive HostInput where
  /-- A command record, delivered whole (R80). -/
  | record (bytes : Bytes)
  /-- A reset: power-on, or the reset input the system provides (R220). -/
  | reset
  deriving DecidableEq, Repr

/-- Why the machine stops with a fault. It has no constructor: no error traps, stops or resets the block (60_exceptions.md R190);
every error is a status in a response. So no step can fault. -/
inductive Fault where
  deriving DecidableEq, Repr

/-- Why an instruction has no meaning. -/
inductive Refusal where
  /-- Raised only by an arm of `exec` whose instruction has no meaning yet; no arm is such an arm, so nothing raises it. Safe: the
  model would stop where the block goes on. -/
  | notModelled (mnemonic : String)
  deriving DecidableEq, Repr

/-- The state of one block instance. `acc` and `maxAccum` are all of the spec's state (R34). The other three fields are the model's
own: the OPEN parameter the model takes as an argument, and the two sides of the host interface. -/
structure State where
  /-- `ACC`, the reader's accumulation buffer (R23). -/
  acc : Bytes
  /-- `MAX_ACCUM` (R29): 0 is no limit from this register. -/
  maxAccum : BitVec 32
  /-- `ACC_CAPACITY` (R7, R8): a number of bytes, or `none` for `INF`. No step writes it (log 4). -/
  accCapacity : Option Nat
  /-- What the host has issued and the block has not executed yet, oldest first (log 1). -/
  inputs : List HostInput
  /-- The response records the block has returned to the host, oldest first (R86). No step reads it (log 2). -/
  responses : List Bytes
  deriving DecidableEq, Repr

/-- The state right after reset (R34, R220), of the reference model's block (`ACC_CAPACITY = INF`, R7), with nothing issued yet. -/
def State.reset : State :=
  { acc := [], maxAccum := 0x00000000, accCapacity := none, inputs := [], responses := [] }

end Sys2Proof.Machine
end

