-- ==== Sys2Proof/Machine/Ops.lean ====
section
/-! DEFINITION. The named operations over the state: the register writes, answering a command, the length field of a response, the
block's reset (70_reset_and_hazards.md R220), and the host's side of the interface.
There is no exception to take and none to return from (60_exceptions.md R190, R194, R195): an error is a response. -/

namespace Sys2Proof.Machine

/-- What one step or one command answers. -/
abbrev Outcome := Host.Outcome State Fault Refusal

/-- `ACC <- v`. -/
def State.setAcc (s : State) (v : Bytes) : State := { s with acc := v }

/-- `MAX_ACCUM <- v`. -/
def State.setMaxAccum (s : State) (v : BitVec 32) : State := { s with maxAccum := v }

/-- The host inputs not executed yet. -/
def State.setInputs (s : State) (v : List HostInput) : State := { s with inputs := v }

/-- Return one response record to the host: the one response of a command (R6, R86). -/
def State.respond (s : State) (r : Bytes) : State := { s with responses := s.responses ++ [r] }

/-- The host issues an input, after every earlier one (R49). -/
def State.deliver (s : State) (x : HostInput) : State := s.setInputs (s.inputs ++ [x])

/-- The status byte OK (R85). -/
def statusOk : Byte := 0x00

/-- `OK(payload)`: the status byte, then the payload (R86). -/
def okResponse (payload : Bytes) : Bytes := statusOk :: payload

/-- `le32(len(out))`. Where `out` has 2^32 bytes or more the spec states no value and a free value stands there (log 5). -/
def lengthField (out : Bytes) : Bytes :=
  le32 (if out.length < 2 ^ 32 then BitVec.ofNat 32 out.length else Config.overlongLength out)

/-- `le32(len(out)) ++ out` (R86, R87). -/
def withLength (out : Bytes) : Bytes := lengthField out ++ out

/-- The effective accumulation limit `L` (R28): the least of MAX_ACCUM, when it is not 0, and ACC_CAPACITY, when it is a number;
`none` is `INF`. -/
def effectiveLimit (maxAccum : BitVec 32) (accCapacity : Option Nat) : Option Nat :=
  match (if maxAccum = 0 then none else some maxAccum.toNat), accCapacity with
  | none, cap => cap
  | some m, none => some m
  | some m, some c => some (min m c)

/-- The limit the reader applies in this state. -/
def State.limit (s : State) : Option Nat := effectiveLimit s.maxAccum s.accCapacity

/-- `ACC_LEN = min(len(ACC), 0xFFFFFFFF)` (R30). -/
def State.accLen (s : State) : BitVec 32 := BitVec.ofNat 32 (min s.acc.length 0xFFFFFFFF)

/-- A reset of the block (R220): ACC and MAX_ACCUM take their reset values; there is no response. -/
def blockReset (s : State) : Outcome :=
  .next ((s.setAcc State.reset.acc).setMaxAccum State.reset.maxAccum)

/-- No command is pending: the block is idle between commands (R205), and nothing changes (log 3). -/
def idle (s : State) : Outcome := .next s

end Sys2Proof.Machine
end

