-- ==== Sys2Proof/Machine/Control.lean ====
section
/-! DEFINITION. The control commands (45_control.md). -/

namespace Sys2Proof.Machine

/-- RDR_CLEAR (R170): the bytes discarded produce no result. -/
def execRdrClear (s : State) : Outcome :=
  .next ((s.setAcc []).respond (okResponse []))

/-- MAXACC_WR (R171): every value is legal, and ACC is not touched. -/
def execMaxaccWr (value : BitVec 32) (s : State) : Outcome :=
  .next ((s.setMaxAccum value).respond (okResponse []))

/-- MAXACC_RD (R172): the register, not the effective limit. -/
def execMaxaccRd (s : State) : Outcome :=
  .next (s.respond (okResponse (le32 s.maxAccum)))

/-- STATUS_RD (R173). -/
def execStatusRd (s : State) : Outcome :=
  .next (s.respond (okResponse (le32 s.accLen)))

end Sys2Proof.Machine
end

