-- ==== Sys2Proof/Machine/Flags.lean ====
section
/-! DEFINITION. The Info flags (10_state.md R31, 42_header.md R132). They are the block's only flags; none is stored. -/

namespace Sys2Proof.Machine

/-- The type codes that have a name (R62); every other value is unknown. -/
def knownTypes : List Byte := [1, 2, 3, 5, 6]

/-- Bit 0, UNKNOWN_TYPE. -/
def unknownTypeFlag (h : Header) : Byte := if h.type ∈ knownTypes then 0x00 else 0x01

/-- Bit 1, MAGIC_MISMATCH. -/
def magicMismatchFlag (h : Header) : Byte := if h.magic = Config.magic then 0x00 else 0x02

/-- Bit 2, VERSION_MISMATCH. -/
def versionMismatchFlag (h : Header) : Byte := if h.version = Config.mdpVersion then 0x00 else 0x04

/-- `info_of(h)` (R132): bits 7:3 are always 0. -/
def infoOf (h : Header) : Byte := unknownTypeFlag h ||| magicMismatchFlag h ||| versionMismatchFlag h

end Sys2Proof.Machine
end

