-- ==== Sys2Proof/Machine/HeaderCodec.lean ====
section
/-! DEFINITION. The Header Codec (42_header.md): pack, unpack, HDR_PACK and HDR_UNPACK. Both directions carry every field raw. -/

namespace Sys2Proof.Machine

/-- `pack(h)` (R130): the fields at the offsets of R60, little-endian, no constant substituted. -/
def packHeader (h : Header) : Bytes :=
  le16 h.magic ++ [h.version] ++ [h.type] ++ le32 h.seq ++ le32 h.ack
    ++ [h.flags] ++ [h.src] ++ [h.dst] ++ [h.reserved]

/-- `unpack(v)` (R132). `v` has 16 bytes; of a shorter string the missing bytes would read as 0 (log 11). -/
def unpackHeader (v : Bytes) : Header :=
  { magic := rd16 v 0, version := byteAt v 2, type := byteAt v 3, seq := rd32 v 4, ack := rd32 v 8,
    flags := byteAt v 12, src := byteAt v 13, dst := byteAt v 14, reserved := byteAt v 15 }

/-- HDR_PACK (R131). -/
def execHdrPack (h : Header) (s : State) : Outcome :=
  .next (s.respond (okResponse (packHeader h)))

/-- HDR_UNPACK (R133): the Info byte, then the fields in format H order. -/
def execHdrUnpack (v : Bytes) (s : State) : Outcome :=
  .next (s.respond (okResponse (infoOf (unpackHeader v) :: packHeader (unpackHeader v))))

end Sys2Proof.Machine
end

