-- ==== Sys2Proof/Machine/Results.lean ====
section
/-! DEFINITION. The result types of 00_scope.md R13 and their serialisation: status codes (30_encoding.md R85), error payloads and
result records (R87). -/

namespace Sys2Proof.Machine

/-- A decoded frame (R13): header, body and the Info flags. -/
structure Frame where
  header : Header
  body   : Bytes
  info   : Byte
  deriving DecidableEq, Repr

/-- The error taxonomy (R13, R191). -/
inductive FrameError where
  /-- A 0x00 where COBS allows none; in the frame pipeline, any COBS failure. -/
  | cobsInvalid
  /-- A COBS code needs more data bytes than remain; COBS_DEC only. -/
  | truncated
  /-- The decoded candidate has fewer than 2 bytes. -/
  | tooShort
  /-- The received CRC differs from the computed one. -/
  | crcMismatch (received computed : BitVec 16)
  /-- The CRC matched and the payload has fewer than 16 bytes. -/
  | shortPayload (len : Byte)
  /-- The candidate is empty or does not end in 0x00; FRAME_DEC only. -/
  | noDelimiter
  /-- FRAME_ENC's body has more than 65535 bytes. -/
  | bodyTooLarge
  /-- The accumulation limit was reached; FEED only. -/
  | resourceExceeded
  /-- The command record does not decode. -/
  | illegalCommand
  deriving DecidableEq, Repr

/-- `Result = Ok(Frame) | Err(FrameError)` (R13). -/
abbrev FrameResult := Except FrameError Frame

/-- The status code of an error (R85). -/
def FrameError.status : FrameError → Byte
  | .cobsInvalid => 0x01
  | .truncated => 0x02
  | .tooShort => 0x03
  | .crcMismatch _ _ => 0x04
  | .shortPayload _ => 0x05
  | .noDelimiter => 0x06
  | .bodyTooLarge => 0x07
  | .resourceExceeded => 0x08
  | .illegalCommand => 0x09

/-- What an error records after its status code (R85, R87, R191). -/
def FrameError.payload : FrameError → Bytes
  | .crcMismatch received computed => le16 received ++ le16 computed
  | .shortPayload len => [len]
  | _ => []

/-- The bytes of an error: status, then payload. -/
def errorRecord (e : FrameError) : Bytes := e.status :: e.payload

/-- The result record of one `Result` (R87). -/
def resultRecord : FrameResult → Bytes
  | .ok frame => okResponse ([frame.info] ++ packHeader frame.header ++ withLength frame.body)
  | .error e => errorRecord e

/-- A command that yields a byte string or raises an error (R86): `OK(le32(len(out)) ++ out)`, or the error alone. -/
def bytesResponse : Except FrameError Bytes → Bytes
  | .ok out => okResponse (withLength out)
  | .error e => errorRecord e

/-- An illegal command record (R174): status IllegalCommand, nothing read or written. -/
def illegalCommand (s : State) : Outcome := .next (s.respond (errorRecord .illegalCommand))

end Sys2Proof.Machine
end

