-- ==== Sys2Proof/Machine/Cobs.lean ====
section
/-! DEFINITION. The COBS Codec (41_cobs.md): the encoder by segments and groups (R110), the decoder byte by byte (R112), the
decoder's index loop as the rule writes it, the group sequences of 30_encoding.md R66, COBS_ENC and COBS_DEC. -/

namespace Sys2Proof.Machine

/-- Split a byte string at every 0x00 (R110): one segment more than it has 0x00 bytes, none holding a 0x00. -/
def splitAtZeros : Bytes → List Bytes
  | [] => [[]]
  | b :: bs =>
    if b = 0x00 then [] :: splitAtZeros bs
    else
      match splitAtZeros bs with
      | [] => [[b]]
      | seg :: segs => (b :: seg) :: segs

/-- The groups of one segment that has `full` full groups in it (R110): each full group is 0xFF and 254 bytes, and a group for
what is left closes the segment, except after the full groups of a last segment that ends on one, under `Omit`. -/
def segmentGroups (form : FinalFullGroup) (last : Bool) : Nat → Bytes → Bytes
  | 0, seg => BitVec.ofNat 8 (seg.length + 1) :: seg
  | full + 1, seg =>
    let rest := seg.drop Config.cobsMaxRun
    0xFF :: seg.take Config.cobsMaxRun ++
      (if last && rest.isEmpty && form == .omitted then [] else segmentGroups form last full rest)

/-- One segment encoded; the loop of R110 takes a full group while 254 bytes or more are left. -/
def encodeSegment (form : FinalFullGroup) (last : Bool) (seg : Bytes) : Bytes :=
  segmentGroups form last (seg.length / Config.cobsMaxRun) seg

/-- All segments in order; the last one is the one nothing follows. -/
def encodeSegments (form : FinalFullGroup) : List Bytes → Bytes
  | [] => []
  | [seg] => encodeSegment form true seg
  | seg :: segs => encodeSegment form false seg ++ encodeSegments form segs

/-- `cobs_encode(x)` (R110) with the parameter COBS_FINAL_FULL_GROUP as an argument. -/
def cobsEncodeWith (form : FinalFullGroup) (x : Bytes) : Bytes :=
  encodeSegments form (splitAtZeros x) ++ [Config.cobsDelim]

/-- `cobs_encode(x)` of this hardware. -/
def cobsEncode (x : Bytes) : Bytes := cobsEncodeWith Config.cobsFinalFullGroup x

/-- The decoder of R112 from inside the input. `pending` says that a finished group's implied 0x00 is owed if another group
follows; the number is how many data bytes the current group still needs. Bytes are checked in index order. -/
def cobsDecodeFrom (pending : Bool) : Nat → Bytes → Except FrameError Bytes
  | 0, [] => .ok []
  | _ + 1, [] => .error .truncated
  | 0, code :: ys =>
    if code = 0x00 then .error .cobsInvalid
    else (cobsDecodeFrom (code != 0xFF) (code.toNat - 1) ys).map fun out => (if pending then [0x00] else []) ++ out
  | need + 1, b :: ys =>
    if b = 0x00 then .error .cobsInvalid
    else (cobsDecodeFrom pending need ys).map fun out => b :: out

/-- `cobs_decode(y)` (R112): the decoded bytes, or Truncated, or CobsInvalid, whichever fault has the lower index. -/
def cobsDecode (y : Bytes) : Except FrameError Bytes := cobsDecodeFrom false 0 y

/-- The inner loop of R112 over `j`: copy `count` data bytes from index `at_` on to the end of `out`. -/
def cobsCopyGroup (y : Bytes) : Nat → Nat → Bytes → Except FrameError Bytes
  | 0, _, out => .ok out
  | count + 1, at_, out =>
    if y.length ≤ at_ then .error .truncated
    else if byteAt y at_ = 0x00 then .error .cobsInvalid
    else cobsCopyGroup y count (at_ + 1) (out ++ [byteAt y at_])

/-- The outer loop of R112, index `i` and output `out` as the rule has them, for at most `fuel` groups. -/
def cobsDecodeLoop (y : Bytes) : Nat → Nat → Bytes → Except FrameError Bytes
  | 0, _, out => .ok out
  | fuel + 1, i, out =>
    if y.length ≤ i then .ok out
    else
      let code := byteAt y i
      if code = 0x00 then .error .cobsInvalid
      else
        match cobsCopyGroup y (code.toNat - 1) (i + 1) out with
        | .error e => .error e
        | .ok out =>
          let i := i + code.toNat
          cobsDecodeLoop y fuel i (if code ≠ 0xFF ∧ i < y.length then out ++ [0x00] else out)

/-- What R66 allows as the data of one group: at most 254 bytes, none of them 0x00. -/
def isGroupData (data : Bytes) : Bool := data.length ≤ Config.cobsMaxRun && data.all fun b => b != 0x00

/-- One group as bytes (R66): the code byte, one more than the data bytes it counts, then the data bytes. -/
def groupBytes (data : Bytes) : Bytes := BitVec.ofNat 8 (data.length + 1) :: data

/-- What a sequence of groups stands for (R66): each group's data, and one 0x00 after each but the last and the full ones. -/
def groupsMeaning : List Bytes → Bytes
  | [] => []
  | [data] => data
  | data :: groups => data ++ (if data.length = Config.cobsMaxRun then [] else [0x00]) ++ groupsMeaning groups

/-- COBS_ENC (R111). -/
def execCobsEnc (data : Bytes) (s : State) : Outcome :=
  .next (s.respond (bytesResponse (.ok (cobsEncode data))))

/-- COBS_DEC (R113). -/
def execCobsDec (data : Bytes) (s : State) : Outcome :=
  .next (s.respond (bytesResponse (cobsDecode data)))

end Sys2Proof.Machine
end

