-- ==== Sys2Proof/Machine/Crc.lean ====
section
/-! DEFINITION. The CRC16 Engine (40_crc.md): one CRC step, the CRC of a byte string, the table form a build may use, and CRC16. -/

namespace Sys2Proof.Machine

/-- One of the eight shifts of R100: shift left, and add the polynomial when the bit shifted out is 1. -/
def crcShift (c : BitVec 16) : BitVec 16 :=
  if c.getLsbD 15 then (c <<< 1) ^^^ Config.crcPoly else c <<< 1

/-- `crc_step` (R100): the byte enters at bits 15:8, then eight shifts, most significant bit first. -/
def crcStep (c : BitVec 16) (b : Byte) : BitVec 16 :=
  Nat.repeat crcShift 8 (c ^^^ (b.setWidth 16 <<< 8))

/-- `CRC16` (R101): no reflection and no final XOR. -/
def crc16 (xs : Bytes) : BitVec 16 := xs.foldl crcStep Config.crcInit

/-- The table of R105: `T[i] = crc_step(0, i)`. -/
def crcTable (i : Byte) : BitVec 16 := crcStep 0 i

/-- The byte-wise table form of R105, which a build may use instead of `crcStep`. -/
def crcStepByTable (c : BitVec 16) (b : Byte) : BitVec 16 :=
  (c <<< 8) ^^^ crcTable ((c >>> 8).setWidth 8 ^^^ b)

/-- CRC16 (R102). -/
def execCrc16 (data : Bytes) (s : State) : Outcome :=
  .next (s.respond (okResponse (le16 (crc16 data))))

end Sys2Proof.Machine
end

