-- ==== Sys2Proof/Machine/FrameAssembler.lean ====
section
/-! DEFINITION. The Frame Assembler (43_frame_assembler.md): encode_frame (R140), the COMMAND body shape (30_encoding.md R67) and
FRAME_ENC. -/

namespace Sys2Proof.Machine

/-- The header the assembler builds (R140): the constants of R60, `reserved` 0, the six inputs raw. -/
def assembledHeader (type : Byte) (seq ack : BitVec 32) (flags src dst : Byte) : Header :=
  { magic := Config.magic, version := Config.mdpVersion, type := type, seq := seq, ack := ack, flags := flags,
    src := src, dst := dst, reserved := 0x00 }

/-- `full = payload ++ le16(CRC16(payload))` (R65, R106): the bytes COBS encodes. -/
def withCrc (payload : Bytes) : Bytes := payload ++ le16 (crc16 payload)

/-- `encode_frame` (R140): the wire frame, or BodyTooLarge for every type alike. -/
def encodeFrame (type : Byte) (seq ack : BitVec 32) (flags src dst : Byte) (body : Bytes) :
    Except FrameError Bytes :=
  if body.length > Config.maxBody then .error .bodyTooLarge
  else .ok (cobsEncode (withCrc (packHeader (assembledHeader type seq ack flags src dst) ++ body)))

/-- `cmd_body(cmd, data)` (R67), the body shape of a COMMAND frame; none where it is not defined. No command builds or checks it. -/
def cmdBody (cmd : BitVec 16) (data : Bytes) : Option Bytes :=
  if data.length ≤ Config.maxBody then some (le16 cmd ++ le16 (BitVec.ofNat 16 data.length) ++ data) else none

/-- FRAME_ENC (R141). -/
def execFrameEnc (type : Byte) (seq ack : BitVec 32) (flags src dst : Byte) (body : Bytes) (s : State) : Outcome :=
  .next (s.respond (bytesResponse (encodeFrame type seq ack flags src dst body)))

end Sys2Proof.Machine
end

