-- ==== Sys2Proof/Machine/FrameDecoder.lean ====
section
/-! DEFINITION. The decode pipeline (44_stream_reader.md R150) and FRAME_DEC (R151). -/

namespace Sys2Proof.Machine

/-- Steps 6 and 7 of R150, on a payload whose CRC matched. -/
def decodePayload (payload : Bytes) : FrameResult :=
  if payload.length < Config.hdrLen then .error (.shortPayload (BitVec.ofNat 8 payload.length))
  else
    let h := unpackHeader (slice payload 0 Config.hdrLen)
    .ok { header := h, body := payload.drop Config.hdrLen, info := infoOf h }

/-- Steps 3 to 7 of R150, on the COBS-decoded bytes. -/
def decodeFull (d : Bytes) : FrameResult :=
  if d.length < Config.crcLen then .error .tooShort
  else
    let payload := slice d 0 (d.length - Config.crcLen)
    let received := rd16 d (d.length - Config.crcLen)
    let computed := crc16 payload
    if received ≠ computed then .error (.crcMismatch received computed)
    else decodePayload payload

/-- `decode_frame(w)` (R150): the first failing step determines the error. Step 2 reports every COBS failure as CobsInvalid. -/
def decodeFrame (w : Bytes) : FrameResult :=
  if w.getLast? ≠ some Config.cobsDelim then .error .noDelimiter
  else
    match cobsDecode (slice w 0 (w.length - 1)) with
    | .error _ => .error .cobsInvalid
    | .ok d => decodeFull d

/-- FRAME_DEC (R151): one result record. -/
def execFrameDec (wire : Bytes) (s : State) : Outcome :=
  .next (s.respond (resultRecord (decodeFrame wire)))

end Sys2Proof.Machine
end

