-- ==== Sys2Proof/Machine/Reader.lean ====
section
/-! DEFINITION. The Frame Stream Reader (44_stream_reader.md): the byte step (R153) with the accumulation limit (R155), and FEED. -/

namespace Sys2Proof.Machine

/-- A non-delimiter byte finds the buffer full: `L != INF and len(ACC) >= L` (R153). -/
def limitReached (limit : Option Nat) (acc : Bytes) : Bool :=
  match limit with
  | none => false
  | some l => l ≤ acc.length

/-- `feed_byte` (R153): the new ACC, and the zero or one result the byte emits. -/
def feedByte (limit : Option Nat) (acc : Bytes) (b : Byte) : Bytes × List FrameResult :=
  if b = Config.cobsDelim then ([], [decodeFrame (acc ++ [Config.cobsDelim])])
  else if limitReached limit acc then ([], [.error .resourceExceeded])
  else (acc ++ [b], [])

/-- The bytes of one FEED in index order (R154): the end ACC and the results in arrival order. -/
def feedBytes (limit : Option Nat) (acc : Bytes) : Bytes → Bytes × List FrameResult
  | [] => (acc, [])
  | b :: bs =>
    let first := feedByte limit acc b
    let rest := feedBytes limit first.1 bs
    (rest.1, first.2 ++ rest.2)

/-- FEED's response (R86): the status byte, `le32(count)`, the result records in arrival order. -/
def feedResponse (results : List FrameResult) : Bytes :=
  okResponse (le32 (BitVec.ofNat 32 results.length) ++ results.flatMap resultRecord)

/-- FEED (R154). -/
def execFeed (data : Bytes) (s : State) : Outcome :=
  let fed := feedBytes s.limit s.acc data
  .next ((s.setAcc fed.1).respond (feedResponse fed.2))

end Sys2Proof.Machine
end

