-- ==== Sys2Proof/Machine/Dispatch.lean ====
section
/-! DEFINITION. One arm for each typed command (30_encoding.md R79): its meaning. -/

namespace Sys2Proof.Machine

def exec (i : Instr) (s : State) : Host.Outcome State Fault Refusal :=
  match i with
  | .crc16 data => Sys2Proof.Machine.execCrc16 data s
  | .cobsEnc data => Sys2Proof.Machine.execCobsEnc data s
  | .cobsDec data => Sys2Proof.Machine.execCobsDec data s
  | .hdrPack h => Sys2Proof.Machine.execHdrPack h s
  | .hdrUnpack v => Sys2Proof.Machine.execHdrUnpack v s
  | .frameEnc type seq ack flags src dst body => Sys2Proof.Machine.execFrameEnc type seq ack flags src dst body s
  | .frameDec wire => Sys2Proof.Machine.execFrameDec wire s
  | .feed data => Sys2Proof.Machine.execFeed data s
  | .rdrClear => Sys2Proof.Machine.execRdrClear s
  | .maxaccWr value => Sys2Proof.Machine.execMaxaccWr value s
  | .maxaccRd => Sys2Proof.Machine.execMaxaccRd s
  | .statusRd => Sys2Proof.Machine.execStatusRd s

end Sys2Proof.Machine
end

