-- ==== Sys2Proof/Machine/Step.lean ====
section
/-! DEFINITION. One step: the block takes the oldest host input and carries it out as one indivisible transaction (00_scope.md R6,
20_memory.md R45, R49). -/

namespace Sys2Proof.Machine

/-- One transaction. A record that decodes runs its command; an illegal record answers IllegalCommand; a reset resets; with nothing
issued the block is idle. -/
def step (s : State) : Host.Outcome State Fault Refusal :=
  match s.inputs with
  | [] => idle s
  | .reset :: rest => blockReset (s.setInputs rest)
  | .record bytes :: rest =>
    match decode bytes with
    | .command i => exec i (s.setInputs rest)
    | .illegal _ => illegalCommand (s.setInputs rest)

/-- `s` with the record of the opcode table's bits (`tableRecord`) issued as the very next input (log 8). -/
def State.withFetchWord (s : State) (nbits w : Nat) : State :=
  s.setInputs (.record (tableRecord nbits w) :: s.inputs)

end Sys2Proof.Machine
end

