-- ==== Sys2Proof/Machine/Assembler.lean ====
section
/-! DEFINITION. The assembly syntax of 30_encoding.md R88 and the pseudo-instructions of R89: text to typed commands, whose
records `encode` gives. No step uses it. What R88 leaves open (white space, letter case, numbers out of range) is log 9. -/

namespace Sys2Proof.Machine

/-- `FEED_BYTE b` (R89). -/
def feedByteCommand (b : Byte) : Instr := .feed [b]

/-- `NO_LIMIT` (R89). -/
def noLimitCommand : Instr := .maxaccWr 0

/-- `CMD_FRAME_ENC seq, ack, flags, src, dst, cmd, data` (R89): none where `cmd_body` is not defined. -/
def cmdFrameEncCommand (seq ack : BitVec 32) (flags src dst : Byte) (cmd : BitVec 16) (data : Bytes) : Option Instr :=
  (cmdBody cmd data).map fun body => .frameEnc 2 seq ack flags src dst body

/-- Split text at every separator. -/
def splitText (sep : Char) : List Char → List (List Char)
  | [] => [[]]
  | c :: cs =>
    if c = sep then [] :: splitText sep cs
    else
      match splitText sep cs with
      | [] => [[c]]
      | part :: parts => (c :: part) :: parts

/-- The words of a text: what stands between spaces. -/
def textWords (cs : List Char) : List (List Char) := (splitText ' ' cs).filter fun w => !w.isEmpty

/-- A text without the spaces at its two ends. -/
def trimText (cs : List Char) : List Char :=
  ((cs.dropWhile (· == ' ')).reverse.dropWhile (· == ' ')).reverse

/-- A hex digit, either case. -/
def hexDigit (c : Char) : Option Nat :=
  if '0' ≤ c && c ≤ '9' then some (c.toNat - '0'.toNat)
  else if 'A' ≤ c && c ≤ 'F' then some (c.toNat - 'A'.toNat + 10)
  else if 'a' ≤ c && c ≤ 'f' then some (c.toNat - 'a'.toNat + 10)
  else none

/-- A decimal digit. -/
def decDigit (c : Char) : Option Nat :=
  if '0' ≤ c && c ≤ '9' then some (c.toNat - '0'.toNat) else none

/-- Digits, most significant first, after a value read so far. -/
def readDigits (base : Nat) (digit : Char → Option Nat) (value : Nat) : List Char → Option Nat
  | [] => some value
  | c :: cs => (digit c).bind fun d => readDigits base digit (value * base + d) cs

/-- One or more decimal digits. -/
def readDecimal (cs : List Char) : Option Nat :=
  if cs.isEmpty then none else readDigits 10 decDigit 0 cs

/-- A number: hex with `0x`, or decimal (R88). -/
def readNumber (cs : List Char) : Option Nat :=
  match cs with
  | '0' :: 'x' :: ds => if ds.isEmpty then none else readDigits 16 hexDigit 0 ds
  | ds => readDecimal ds

/-- A number that fits a field of `w` bits. -/
def readField (w : Nat) (cs : List Char) : Option (BitVec w) :=
  (readNumber cs).bind fun n => if n < 2 ^ w then some (BitVec.ofNat w n) else none

/-- A byte of a byte string: two hex digits. -/
def readHexByte (cs : List Char) : Option Byte :=
  match cs with
  | [hi, lo] => (hexDigit hi).bind fun a => (hexDigit lo).map fun b => BitVec.ofNat 8 (16 * a + b)
  | _ => none

/-- The items of a byte string: hex bytes, a byte followed by `x<n>` standing for `n` of it (R88). -/
def readItems : List (List Char) → Option Bytes
  | [] => some []
  | item :: ('x' :: ds) :: items =>
    (readHexByte item).bind fun b => (readDecimal ds).bind fun n =>
      (readItems items).map fun rest => List.replicate n b ++ rest
  | item :: items => (readHexByte item).bind fun b => (readItems items).map fun rest => b :: rest

/-- A byte string in brackets (R88). -/
def readBytes (cs : List Char) : Option Bytes :=
  match cs with
  | '[' :: rest =>
    match rest.reverse with
    | ']' :: inner => readItems (textWords inner.reverse)
    | _ => none
  | _ => none

/-- A command or pseudo-instruction, from its mnemonic and operands (R88, R89). -/
def readCommand (mnemonic : String) (ops : List (List Char)) : Option Instr :=
  match mnemonic, ops with
  | "CRC16", [d] => (readBytes d).map .crc16
  | "COBS_ENC", [d] => (readBytes d).map .cobsEnc
  | "COBS_DEC", [d] => (readBytes d).map .cobsDec
  | "HDR_PACK", [m, v, t, q, a, f, s, d, r] => do
    let magic ← readField 16 m
    let version ← readField 8 v
    let type ← readField 8 t
    let seq ← readField 32 q
    let ack ← readField 32 a
    let flags ← readField 8 f
    let src ← readField 8 s
    let dst ← readField 8 d
    let reserved ← readField 8 r
    some (.hdrPack { magic, version, type, seq, ack, flags, src, dst, reserved })
  | "HDR_UNPACK", [v] => (readBytes v).map .hdrUnpack
  | "FRAME_ENC", [t, q, a, f, s, d, b] => do
    some (.frameEnc (← readField 8 t) (← readField 32 q) (← readField 32 a) (← readField 8 f) (← readField 8 s)
      (← readField 8 d) (← readBytes b))
  | "FRAME_DEC", [w] => (readBytes w).map .frameDec
  | "FEED", [d] => (readBytes d).map .feed
  | "RDR_CLEAR", [] => some .rdrClear
  | "MAXACC_WR", [v] => (readField 32 v).map .maxaccWr
  | "MAXACC_RD", [] => some .maxaccRd
  | "STATUS_RD", [] => some .statusRd
  | "FEED_BYTE", [b] => (readHexByte b).map feedByteCommand
  | "NO_LIMIT", [] => some noLimitCommand
  | "CMD_FRAME_ENC", [q, a, f, s, d, c, b] => do
    cmdFrameEncCommand (← readField 32 q) (← readField 32 a) (← readField 8 f) (← readField 8 s) (← readField 8 d)
      (← readField 16 c) (← readBytes b)
  | _, _ => none

/-- One line (R88): the mnemonic, then its operands separated by commas; `;` starts a comment. A line with nothing else on it is no
command; a line that is no command of the syntax, or that no record carries, is refused. -/
def assembleLine (line : List Char) : Option (List Instr) :=
  let code := trimText ((line.takeWhile (· != ';')).map fun c => if c == '\t' then ' ' else c)
  if code.isEmpty then some []
  else
    let operands := trimText (code.dropWhile (· != ' '))
    let ops := if operands.isEmpty then [] else (splitText ',' operands).map trimText
    (readCommand (String.ofList (code.takeWhile (· != ' '))) ops).bind fun i =>
      if i.wellFormed then some [i] else none

/-- A program text: one command a line. None when a line is refused. -/
def assembleText (text : String) : Option (List Instr) :=
  ((splitText '\n' text.toList).mapM assembleLine).map List.flatten

/-- The command records of a program text (R88): each command's encoding is its record of R80. -/
def assembleRecords (text : String) : Option (List Bytes) :=
  (assembleText text).map fun cmds => cmds.map encode

end Sys2Proof.Machine
end

