-- ==== Sys2Proof/Machine/Names.lean ====
section
/-! DEFINITION. The name lookups of 30_encoding.md: type codes (R62), the flag bit (R63) and endpoint ids (R64). The block uses no
name for any decision and no command returns one. -/

namespace Sys2Proof.Machine

/-- `type_name(t)` (R62): total, with `unknown(N)`, N decimal, for every value outside the table. -/
def typeName (t : Byte) : String :=
  if t = 1 then "TELEMETRY"
  else if t = 2 then "COMMAND"
  else if t = 3 then "ACK"
  else if t = 5 then "EVENT"
  else if t = 6 then "HELLO"
  else "unknown(" ++ toString t.toNat ++ ")"

/-- The name of an endpoint id (R64). 0xA0 has a symbol of its own and is never GATEWAY. An id outside the table has no name; how
it is rendered is console rendering, out of scope (R5). -/
def endpointName (id : Byte) : Option String :=
  if id = 0xA1 then some "SIDE_A"
  else if id = 0xB1 then some "SIDE_B"
  else if id = 0xC0 then some "GATEWAY"
  else if id = 0xFF then some "BCAST"
  else if id = 0xA0 then some "LEGACY_A0"
  else none

/-- Bit 0 of a header's `flags`, ACK_REQUESTED (R63). The block never acts on it. -/
def ackRequested (flags : Byte) : Bool := flags.getLsbD 0

end Sys2Proof.Machine
end

