-- ==== Sys2Proof/Safety.lean ====
section
/-! DEFINITION. What counts as safe, in the terms the statements use: a step that answers a next state, the invariant of the
reader's state (10_state.md R25, log 7), the bytes a FEED discards (44_stream_reader.md R155), the pure commands (20_memory.md
R46, R50), and the legal records of 30_encoding.md R83 written out apart from the decoder. -/

namespace Sys2Proof.Machine

/-- The outcome is a next state: the block did not stop (60_exceptions.md R190). -/
def goesOn (o : Outcome) : Bool :=
  match o with
  | .next _ => true
  | .fault _ => false
  | .refused _ => false

/-- ACC holds no 0x00 byte (R25). -/
def State.zeroFree (s : State) : Bool := s.acc.all fun b => b != 0x00

/-- ACC holds at most ACC_CAPACITY bytes, when that is a number (R8). -/
def State.fitsCapacity (s : State) : Bool :=
  match s.accCapacity with
  | none => true
  | some c => s.acc.length ≤ c

/-- ACC holds at most `L` bytes, when `L` is finite (R25); MAXACC_WR alone can end this (R171, log 7). -/
def State.withinLimit (s : State) : Bool :=
  match s.limit with
  | none => true
  | some l => s.acc.length ≤ l

/-- The invariant of the reader's state that every step keeps. -/
def State.inv (s : State) : Bool := s.zeroFree && s.fitsCapacity

/-- How many bytes of a FEED's operand the limit discards (R155): the places where a byte other than 0x00 finds the ACC that the bytes
before it leave at the limit. -/
def discardedBytes (limit : Option Nat) (acc data : Bytes) : Nat :=
  (List.range data.length).countP fun k =>
    data.getD k 0x00 != 0x00 && limitReached limit (feedBytes limit acc (data.take k)).1

end Sys2Proof.Machine

namespace Sys2Proof

/-- The four bytes at offset `o` as a number, the byte at the lowest offset least significant (R40). -/
def littleEndian32 (bytes : Bytes) (o : Nat) : Nat :=
  (bytes.getD o 0).toNat + 256 * (bytes.getD (o + 1) 0).toNat + 65536 * (bytes.getD (o + 2) 0).toNat
    + 16777216 * (bytes.getD (o + 3) 0).toNat

/-- Which records are legal, written out code by code from R80, R82 and R83 apart from the decoder's tables. -/
def recordIsLegal (bytes : Bytes) : Bool :=
  match bytes with
  | [] => false
  | op :: _ =>
    match op.toNat with
    | 1 | 2 | 3 | 7 | 8 => 5 ≤ bytes.length && bytes.length == 5 + littleEndian32 bytes 1
    | 4 | 5 => bytes.length == 17
    | 6 => 17 ≤ bytes.length && bytes.length == 17 + littleEndian32 bytes 13
    | 9 | 11 | 12 => bytes.length == 1
    | 10 => bytes.length == 5
    | _ => false

/-- A byte string with bit `j` of byte `i` flipped. -/
def flipBit (bytes : Bytes) (i j : Nat) : Bytes := bytes.modify i fun b => b ^^^ (1#8 <<< j)

/-- The commands whose response depends on the operand alone (R50). -/
def Instr.isPure : Instr → Bool
  | .crc16 _ => true
  | .cobsEnc _ => true
  | .cobsDec _ => true
  | .hdrPack _ => true
  | .hdrUnpack _ => true
  | .frameEnc _ _ _ _ _ _ _ => true
  | .frameDec _ => true
  | .feed _ => false
  | .rdrClear => false
  | .maxaccWr _ => false
  | .maxaccRd => false
  | .statusRd => false

end Sys2Proof
end

