-- ==== Sys2Proof/Certificates/Slice0/Obligations.lean ====
section
/-! DEFINITION. The statements for the provers, each from the numbered rules of spec/. -/

open Sys2Proof Sys2Proof.Machine

/-! ### Command records -/

/-- R80 to R83: the record of every well-formed command decodes to that command. -/
def Obligations.DecodeOfEncodeIsTheCommand : Prop :=
  ∀ i : Instr, i.WellFormed → decode (encode i) = .command i

/-- R80 to R83: a record that decodes is the record of the command it decodes to, and that command is well-formed. -/
def Obligations.EncodeOfDecodeIsTheRecord : Prop :=
  ∀ (bytes : Bytes) (i : Instr), decode bytes = .command i → i.WellFormed ∧ encode i = bytes

/-- R83, R84: a record is a command exactly when R83, written out code by code, calls it legal. -/
def Obligations.LegalRecordsExactly : Prop :=
  ∀ bytes : Bytes, (∃ i, decode bytes = .command i) ↔ recordIsLegal bytes = true

/-- R80, R81, R82: records written out byte by byte decode to the commands they stand for. -/
def Obligations.SampleRecordsDecode : Prop :=
  decode [0x01, 0x02, 0x00, 0x00, 0x00, 0x5A, 0xA1] = .command (.crc16 [0x5A, 0xA1]) ∧
  decode [0x04, 0x5A, 0xA1, 0x01, 0x09, 0x78, 0x56, 0x34, 0x12, 0xF0, 0xDE, 0xBC, 0x9A, 0x03, 0xA1, 0xB1, 0x77] =
    .command (.hdrPack { magic := 0xA15A, version := 1, type := 9, seq := 0x12345678, ack := 0x9ABCDEF0, flags := 3,
                         src := 0xA1, dst := 0xB1, reserved := 0x77 }) ∧
  decode [0x06, 0x02, 0x78, 0x56, 0x34, 0x12, 0xF0, 0xDE, 0xBC, 0x9A, 0x01, 0xC0, 0xA1, 0x01, 0x00, 0x00, 0x00, 0xEE] =
    .command (.frameEnc 2 0x12345678 0x9ABCDEF0 1 0xC0 0xA1 [0xEE]) ∧
  decode [0x08, 0x01, 0x00, 0x00, 0x00, 0x07] = .command (.feed [0x07]) ∧
  decode [0x0A, 0x78, 0x56, 0x34, 0x12] = .command (.maxaccWr 0x12345678) ∧
  decode [0x0C] = .command .statusRd

/-! ### Steps of the whole machine -/

/-- R6, R49, R83: when the next host input is a record that decodes, the step is the command, run on the state with that input taken
from the list. -/
def Obligations.StepRunsTheDecodedCommand : Prop :=
  ∀ (s : State) (bytes : Bytes) (rest : List HostInput) (i : Instr),
    s.inputs = .record bytes :: rest → decode bytes = .command i → step s = exec i { s with inputs := rest }

/-- R174: an illegal record answers 0x09, changes neither ACC nor MAX_ACCUM, and leaves the next record to be decoded. -/
def Obligations.IllegalRecordAnswersIllegalCommand : Prop :=
  ∀ (s : State) (bytes : Bytes) (rest : List HostInput),
    s.inputs = .record bytes :: rest → recordIsLegal bytes = false →
      step s = .next { s with inputs := rest, responses := s.responses ++ [[0x09]] }

/-- R34, R220: ACC is empty and MAX_ACCUM is 0 after reset, whatever they were, and a reset gives no response. That the capacity, the
inputs still waiting and the responses already returned stay is the model's choice (log 2, log 4, log 6). -/
def Obligations.ResetLeavesTheResetValues : Prop :=
  State.reset.acc = [] ∧ State.reset.maxAccum = 0 ∧
  ∀ (s : State) (rest : List HostInput), s.inputs = .reset :: rest →
    step s = .next { s with acc := [], maxAccum := 0, inputs := rest }

/-- R222: RDR_CLEAR and reset leave ACC the same, and differ in MAX_ACCUM only. -/
def Obligations.ResetAndClearDifferOnlyInTheLimit : Prop :=
  ∀ s : State, ∃ cleared wiped : State,
    exec .rdrClear s = .next cleared ∧ blockReset s = .next wiped ∧
    cleared.acc = [] ∧ cleared.maxAccum = s.maxAccum ∧ wiped.acc = [] ∧ wiped.maxAccum = 0

/-- R6, R86, R190: no step faults or is refused; a step takes the oldest input, and returns exactly one response for a record and
none for a reset. That a step with no input changes nothing is the model's choice (log 3). -/
def Obligations.EveryStepGoesOn : Prop :=
  ∀ s : State, ∃ t : State, step s = .next t ∧ t.inputs = s.inputs.tail ∧
    ∃ given : List Bytes, t.responses = s.responses ++ given ∧
      (∀ bytes, s.inputs.head? = some (.record bytes) → given.length = 1) ∧
      ((∀ bytes, s.inputs.head? ≠ some (.record bytes)) → given = []) ∧ (s.inputs = [] → t = s)

/-- R46: the frame of every command. No command writes the inputs or the capacity; each adds one response; only MAXACC_WR writes
MAX_ACCUM; only FEED and RDR_CLEAR write ACC. -/
def Obligations.CommandFrames : Prop :=
  ∀ (i : Instr) (s t : State), exec i s = .next t →
    t.inputs = s.inputs ∧ t.accCapacity = s.accCapacity ∧ (∃ r, t.responses = s.responses ++ [r]) ∧
    (i.op ≠ .maxaccWr → t.maxAccum = s.maxAccum) ∧ (i.op ≠ .feed → i.op ≠ .rdrClear → t.acc = s.acc)

/-- R24, R46: in a step, ACC changes only by a reset or by a record that decodes to FEED or RDR_CLEAR, and MAX_ACCUM only by a reset
or by a record that decodes to MAXACC_WR. -/
def Obligations.WhatChangesTheState : Prop :=
  ∀ s t : State, step s = .next t →
    (t.acc ≠ s.acc → s.inputs.head? = some .reset ∨
      ∃ bytes i, s.inputs.head? = some (.record bytes) ∧ decode bytes = .command i ∧ (i.op = .feed ∨ i.op = .rdrClear)) ∧
    (t.maxAccum ≠ s.maxAccum → s.inputs.head? = some .reset ∨
      ∃ bytes i, s.inputs.head? = some (.record bytes) ∧ decode bytes = .command i ∧ i.op = .maxaccWr)

/-- R46: every command but FEED, RDR_CLEAR and MAXACC_WR leaves ACC and MAX_ACCUM, and issued twice gives the same response; FEED is
not idempotent. -/
def Obligations.ReadOnlyCommandsAreIdempotent : Prop :=
  (∀ (i : Instr) (s : State), i.op ≠ .feed → i.op ≠ .rdrClear → i.op ≠ .maxaccWr →
    ∃ r, exec i s = .next { s with responses := s.responses ++ [r] } ∧
      exec i { s with responses := s.responses ++ [r] } = .next { s with responses := s.responses ++ [r, r] }) ∧
  (∃ (data : Bytes) (s t u : State) (r q : Bytes), exec (.feed data) s = .next t ∧ exec (.feed data) t = .next u ∧
    t.responses = s.responses ++ [r] ∧ u.responses = t.responses ++ [q] ∧ r ≠ q)

/-- R50: the response of a pure command depends on its operand alone, so it is the same before and after any other command, and it
leaves that command's effect and response as they were. -/
def Obligations.PureResponsesDependOnTheOperand : Prop :=
  ∀ i : Instr, i.isPure = true → ∃ r : Bytes,
    (∀ s : State, exec i s = .next { s with responses := s.responses ++ [r] }) ∧
    ∀ (j : Instr) (s t : State), exec j s = .next t → ∃ q : Bytes, t.responses = s.responses ++ [q] ∧
      exec j { s with responses := s.responses ++ [r] } = .next { t with responses := s.responses ++ [r, q] }

/-- R32, R34: nothing outside ACC, MAX_ACCUM and the block's capacity acts on a command: on two states that agree in these, every
command has the same response and leaves the same ACC and MAX_ACCUM. -/
def Obligations.CommandsDependOnTheReaderStateAlone : Prop :=
  ∀ (i : Instr) (s t : State), s.acc = t.acc → s.maxAccum = t.maxAccum → s.accCapacity = t.accCapacity →
    ∃ (acc : Bytes) (maxAccum : BitVec 32) (r : Bytes),
      exec i s = .next { s with acc := acc, maxAccum := maxAccum, responses := s.responses ++ [r] } ∧
      exec i t = .next { t with acc := acc, maxAccum := maxAccum, responses := t.responses ++ [r] }

/-! ### Invariants -/

/-- R25, R8, R155: ACC holds no 0x00 byte and never more bytes than the buffer's capacity; every step keeps both. -/
def Obligations.EveryStepKeepsTheReaderInvariant : Prop :=
  ∀ s t : State, s.inv = true → step s = .next t → t.inv = true

/-- R25, R34: the reset state meets the reader's invariant. -/
def Obligations.ResetMeetsTheReaderInvariant : Prop :=
  State.reset.inv = true ∧ State.reset.withinLimit = true

/-- R25, R155, R171: every step but a MAXACC_WR keeps ACC within the effective limit. (R25 says so of every command; R155 and R171
except a MAXACC_WR that lowers the limit: log 7.) -/
def Obligations.OnlyMaxaccWrCanExceedTheLimit : Prop :=
  ∀ s t : State, s.withinLimit = true → step s = .next t →
    (∀ bytes value, s.inputs.head? = some (.record bytes) → decode bytes ≠ .command (.maxaccWr value)) →
    t.withinLimit = true

/-! ### CRC16 -/

/-- R102: the result of CRC16 for every operand, its corner cases and its example. -/
def Obligations.Crc16Answers : Prop :=
  (∀ (data : Bytes) (s : State),
    exec (.crc16 data) s = .next { s with responses := s.responses ++
      [[0x00, (data.foldl crcStep 0xFFFF).extractLsb' 0 8, (data.foldl crcStep 0xFFFF).extractLsb' 8 8]] }) ∧
  crc16 [] = 0xFFFF ∧ crc16 [0x00] = 0xE1F0 ∧ (∀ n : Nat, crc16 (List.replicate n 0x00) ≠ 0) ∧
  (∀ s : State, exec (.crc16 [0x31, 0x32, 0x33, 0x34, 0x35, 0x36, 0x37, 0x38, 0x39]) s =
    .next { s with responses := s.responses ++ [[0x00, 0xB1, 0x29]] })

/-- R105: the CRC in pieces, and the byte-wise table form. -/
def Obligations.CrcInPiecesAndByTable : Prop :=
  (∀ xs ys : Bytes, crc16 (xs ++ ys) = ys.foldl crcStep (crc16 xs)) ∧
  (∀ (c : BitVec 16) (b : Byte), crcStepByTable c b = crcStep c b) ∧ (∀ i : Byte, crcTable i = crcStep 0 i) ∧
  crcTable 0x01 = 0x1021 ∧ crcTable 0x80 = 0x9188 ∧ crcTable 0xFF = 0x1EF0

/-- R103: a CRC step is linear over GF(2) in the state and the byte. -/
def Obligations.CrcStepIsLinear : Prop :=
  ∀ (c d : BitVec 16) (a b : Byte), crcStep (c ^^^ d) (a ^^^ b) = crcStep c a ^^^ crcStep d b

/-! ### COBS -/

/-- R111: COBS_ENC answers OK, the length of the encoded bytes and the encoded bytes. (Where they are 2^32 bytes or more the length
field is free: log 5.) -/
def Obligations.CobsEncAnswers : Prop :=
  ∀ (data : Bytes) (s : State), ∃ n : BitVec 32,
    exec (.cobsEnc data) s = .next { s with responses := s.responses ++ [0x00 :: (le32 n ++ cobsEncode data)] } ∧
    (data.length + 2 + data.length / 254 < 2 ^ 32 → n.toNat = (cobsEncode data).length)

/-- R111: the encoded bytes hold exactly one 0x00, their last byte, and their length is between the two bounds. -/
def Obligations.CobsEncodedShape : Prop :=
  ∀ x : Bytes, (∃ y, cobsEncode x = y ++ [0x00] ∧ ∀ b ∈ y, b ≠ 0x00) ∧
    x.length + 2 ≤ (cobsEncode x).length ∧ (cobsEncode x).length ≤ x.length + 2 + x.length / 254

/-- R110: the corner cases of a last segment: 254 non-zero bytes give one full group and no group after it, 255 give a full group and
a group of one, and the Emit form closes the first with a `01` group. -/
def Obligations.CobsFullGroups : Prop :=
  ∀ (seg : Bytes) (b : Byte), seg.length = 254 → (∀ x ∈ seg, x ≠ 0x00) → b ≠ 0x00 →
    cobsEncode seg = [0xFF] ++ seg ++ [0x00] ∧ cobsEncodeWith .emitted seg = [0xFF] ++ seg ++ [0x01, 0x00] ∧
    cobsEncode (seg ++ [b]) = [0xFF] ++ seg ++ [0x02, b, 0x00] ∧
    cobsEncode (seg ++ [0x00]) = [0xFF] ++ seg ++ [0x01, 0x01, 0x00]

/-- R114, R110: decoding an encoder's output without its delimiter gives the input back, in both forms of the encoder. -/
def Obligations.CobsDecodesWhatItEncodes : Prop :=
  ∀ (form : FinalFullGroup) (x : Bytes),
    cobsDecode ((cobsEncodeWith form x).take ((cobsEncodeWith form x).length - 1)) = .ok x

/-- R112, R113: COBS_DEC answers the decoded bytes, or Truncated alone, or CobsInvalid alone; nothing else. -/
def Obligations.CobsDecAnswers : Prop :=
  ∀ (data : Bytes) (s : State), data.length < 2 ^ 32 →
    (∃ out, cobsDecode data = .ok out ∧ out.length ≤ data.length ∧ exec (.cobsDec data) s =
      .next { s with responses := s.responses ++ [0x00 :: (le32 (BitVec.ofNat 32 out.length) ++ out)] }) ∨
    (cobsDecode data = .error .truncated ∧
      exec (.cobsDec data) s = .next { s with responses := s.responses ++ [[0x02]] }) ∨
    (cobsDecode data = .error .cobsInvalid ∧
      exec (.cobsDec data) s = .next { s with responses := s.responses ++ [[0x01]] })

/-- R112: the decoder is the rule's index loop: bytes checked in index order, the fault at the lower index reported. -/
def Obligations.CobsDecodeIsTheIndexLoop : Prop :=
  ∀ y : Bytes, cobsDecode y = cobsDecodeLoop y y.length 0 []

/-- R66: the decoder accepts exactly the group sequences, and gives what they stand for. -/
def Obligations.CobsDecodeReadsGroups : Prop :=
  ∀ y x : Bytes, cobsDecode y = .ok x ↔
    ∃ groups : List Bytes, (∀ g ∈ groups, isGroupData g = true) ∧ y = groups.flatMap groupBytes ∧ x = groupsMeaning groups

/-- R116: what decodes is an encoding, but for the empty string and the form with a `01` group after a final full group. -/
def Obligations.CobsNonCanonicalInputs : Prop :=
  ∀ y x : Bytes, cobsDecode y = .ok x →
    y = [] ∨ cobsEncode x = y ++ [0x00] ∨
      (∃ z, y = z ++ [0x01] ∧ cobsEncode x = z ++ [0x00] ∧ 255 ≤ z.length ∧ z.getD (z.length - 255) 0x00 = 0xFF)

/-- R117: bytes that hold no 0x00 are never CobsInvalid to the decoder. -/
def Obligations.ZeroFreeBytesAreNeverCobsInvalid : Prop :=
  ∀ (y : Bytes) (e : FrameError), (∀ b ∈ y, b ≠ 0x00) → cobsDecode y = .error e → e = .truncated

/-! ### Header -/

/-- R131, R60: HDR_PACK answers the nine fields at their offsets, little-endian and unchanged. -/
def Obligations.HdrPackAnswers : Prop :=
  (∀ (h : Header) (s : State), exec (.hdrPack h) s = .next { s with responses := s.responses ++
    [[0x00, h.magic.extractLsb' 0 8, h.magic.extractLsb' 8 8, h.version, h.type,
      h.seq.extractLsb' 0 8, h.seq.extractLsb' 8 8, h.seq.extractLsb' 16 8, h.seq.extractLsb' 24 8,
      h.ack.extractLsb' 0 8, h.ack.extractLsb' 8 8, h.ack.extractLsb' 16 8, h.ack.extractLsb' 24 8,
      h.flags, h.src, h.dst, h.reserved]] }) ∧
  (∀ s : State, exec (.hdrPack ⟨0xA15A, 1, 2, 1, 0, 1, 0xC0, 0xA1, 0⟩) s = .next { s with responses := s.responses ++
    [[0x00, 0x5A, 0xA1, 0x01, 0x02, 0x01, 0x00, 0x00, 0x00, 0x00, 0x00, 0x00, 0x00, 0x01, 0xC0, 0xA1, 0x00]] })

/-- R133: HDR_UNPACK answers the Info byte and the 16 bytes as they were given; the corner cases of the Info byte. -/
def Obligations.HdrUnpackAnswers : Prop :=
  (∀ (v : Bytes) (s : State), v.length = 16 → exec (.hdrUnpack v) s =
    .next { s with responses := s.responses ++ [0x00 :: infoOf (unpackHeader v) :: v] }) ∧
  (∀ h : Header, h.type = 9 → h.magic = 0xA15A → h.version = 1 → infoOf h = 0x01) ∧ typeName 9 = "unknown(9)" ∧
  (∀ h : Header, h.type = 2 → h.magic = 0x1234 → h.version = 7 → infoOf h = 0x06) ∧
  (∀ s : State, exec (.hdrUnpack (List.replicate 16 0x00)) s =
    .next { s with responses := s.responses ++ [0x00 :: 0x07 :: List.replicate 16 0x00] }) ∧
  (∀ s : State, exec (.hdrUnpack [0x5A, 0xA1, 0x01, 0x02, 0x01, 0, 0, 0, 0, 0, 0, 0, 0x01, 0xC0, 0xA1, 0]) s =
    .next { s with responses := s.responses ++
      [[0x00, 0x00, 0x5A, 0xA1, 0x01, 0x02, 0x01, 0, 0, 0, 0, 0, 0, 0, 0x01, 0xC0, 0xA1, 0]] })

/-- R134: pack and unpack are inverse to each other. -/
def Obligations.PackAndUnpackAreInverse : Prop :=
  (∀ h : Header, unpackHeader (packHeader h) = h) ∧ (∀ v : Bytes, v.length = 16 → packHeader (unpackHeader v) = v)

/-- R31, R132: each Info bit says what its row of the table says, and bits 7:3 are 0. -/
def Obligations.InfoBitsMeanWhatTheySay : Prop :=
  ∀ h : Header,
    ((infoOf h).getLsbD 0 = true ↔ ¬ (h.type = 1 ∨ h.type = 2 ∨ h.type = 3 ∨ h.type = 5 ∨ h.type = 6)) ∧
    ((infoOf h).getLsbD 1 = true ↔ h.magic ≠ 0xA15A) ∧ ((infoOf h).getLsbD 2 = true ↔ h.version ≠ 1) ∧
    ∀ k, 3 ≤ k → (infoOf h).getLsbD k = false

/-- R62, R64: the name tables; the type names are total, and 0xA0 is not GATEWAY. -/
def Obligations.NameTables : Prop :=
  typeName 1 = "TELEMETRY" ∧ typeName 2 = "COMMAND" ∧ typeName 3 = "ACK" ∧ typeName 5 = "EVENT" ∧ typeName 6 = "HELLO" ∧
  (∀ t : Byte, t ∉ knownTypes → typeName t = "unknown(" ++ toString t.toNat ++ ")") ∧
  endpointName 0xA1 = some "SIDE_A" ∧ endpointName 0xB1 = some "SIDE_B" ∧ endpointName 0xC0 = some "GATEWAY" ∧
  endpointName 0xFF = some "BCAST" ∧ endpointName 0xA0 = some "LEGACY_A0"

/-! ### Frames -/

/-- R140, R141: FRAME_ENC answers the wire frame of the header with the constants, the body and their CRC; a body of more than 65535
bytes answers BodyTooLarge, whatever the type. -/
def Obligations.FrameEncAnswers : Prop :=
  ∀ (type : Byte) (seq ack : BitVec 32) (flags src dst : Byte) (body : Bytes) (s : State),
    (body.length ≤ 65535 → ∃ payload wire : Bytes,
      payload = [0x5A, 0xA1, 0x01, type] ++ le32 seq ++ le32 ack ++ [flags, src, dst, 0x00] ++ body ∧
      wire = cobsEncode (payload ++ le16 (crc16 payload)) ∧ wire.length < 2 ^ 32 ∧
      exec (.frameEnc type seq ack flags src dst body) s =
        .next { s with responses := s.responses ++ [0x00 :: (le32 (BitVec.ofNat 32 wire.length) ++ wire)] }) ∧
    (65535 < body.length →
      exec (.frameEnc type seq ack flags src dst body) s = .next { s with responses := s.responses ++ [[0x07]] })

/-- R142: a wire frame ends in 0x00, holds no other 0x00, and is no longer than the rule's bound. -/
def Obligations.WireFrameShape : Prop :=
  ∀ (type : Byte) (seq ack : BitVec 32) (flags src dst : Byte) (body wire : Bytes),
    encodeFrame type seq ack flags src dst body = .ok wire →
      ∃ y, wire = y ++ [0x00] ∧ (∀ b ∈ y, b ≠ 0x00) ∧
        y.length ≤ 18 + body.length + 1 + (18 + body.length) / 254

/-- R143: decoding an encoded frame gives back its header and body; info is 0, or 1 when the type is unknown. -/
def Obligations.FrameRoundTrip : Prop :=
  ∀ (type : Byte) (seq ack : BitVec 32) (flags src dst : Byte) (body : Bytes), body.length ≤ 65535 →
    ∃ wire, encodeFrame type seq ack flags src dst body = .ok wire ∧
      decodeFrame wire = .ok
        { header := { magic := 0xA15A, version := 1, type := type, seq := seq, ack := ack, flags := flags, src := src,
                      dst := dst, reserved := 0 },
          body := body, info := if type ∈ knownTypes then 0x00 else 0x01 }

/-- R150, R151, R152: FRAME_DEC answers the first failing step of the pipeline, in its order, or the frame. (The body's length field
is its length for every operand a record carries: log 5.) -/
def Obligations.FrameDecAnswers : Prop :=
  ∀ (w : Bytes) (s : State), ∃ r : Bytes,
    exec (.frameDec w) s = .next { s with responses := s.responses ++ [r] } ∧
    (w.getLast? ≠ some 0x00 → r = [0x06]) ∧
    (∀ y, w = y ++ [0x00] →
      (∀ e, cobsDecode y = .error e → r = [0x01]) ∧
      (∀ d, cobsDecode y = .ok d → d.length < 2 → r = [0x03]) ∧
      (∀ (payload : Bytes) (received : BitVec 16), cobsDecode y = .ok (payload ++ le16 received) →
        (received ≠ crc16 payload → r = 0x04 :: (le16 received ++ le16 (crc16 payload))) ∧
        (received = crc16 payload → payload.length < 16 → r = [0x05, BitVec.ofNat 8 payload.length]) ∧
        (received = crc16 payload → 16 ≤ payload.length → ∃ n : BitVec 32,
          r = 0x00 :: infoOf (unpackHeader (payload.take 16)) :: (payload.take 16 ++ le32 n ++ payload.drop 16) ∧
          (w.length < 2 ^ 32 → n.toNat = payload.length - 16))))

/-- R85, R191, R192: the pipeline reports only its own errors, and ShortPayload only with a length of 0 to 15. -/
def Obligations.PipelineErrorsOnly : Prop :=
  ∀ w : Bytes, decodeFrame w ≠ .error .truncated ∧ decodeFrame w ≠ .error .bodyTooLarge ∧
    decodeFrame w ≠ .error .resourceExceeded ∧ decodeFrame w ≠ .error .illegalCommand ∧
    (∀ n, decodeFrame w = .error (.shortPayload n) → n.toNat < 16) ∧
    (∀ received computed, decodeFrame w = .error (.crcMismatch received computed) → received ≠ computed)

/-- R162: one bit of the payload or of the CRC flipped before COBS encoding gives CrcMismatch. -/
def Obligations.OneFlippedBitIsACrcMismatch : Prop :=
  ∀ (payload : Bytes) (i j : Nat), i < (withCrc payload).length → j < 8 →
    ∃ received computed, decodeFrame (cobsEncode (flipBit (withCrc payload) i j)) = .error (.crcMismatch received computed)

/-- R87: a reader of a FEED response can find each result record's end, when every body has at most 2^32-1 bytes: no two sequences of
results have the same bytes. -/
def Obligations.ResultRecordsAreReadable : Prop :=
  ∀ (q r : FrameResult) (xs ys : Bytes),
    (∀ f, q = .ok f → f.body.length < 2 ^ 32) → (∀ f, r = .ok f → f.body.length < 2 ^ 32) →
    resultRecord q ++ xs = resultRecord r ++ ys → q = r ∧ xs = ys

/-! ### The stream reader -/

/-- R154: FEED is the fold of the byte step over its operand in index order; it answers the count and the results, and writes ACC
only. -/
def Obligations.FeedAnswers : Prop :=
  ∀ (data : Bytes) (s : State), ∃ (acc : Bytes) (results : List FrameResult),
    (acc, results) = data.foldl (fun p b => ((feedByte s.limit p.1 b).1, p.2 ++ (feedByte s.limit p.1 b).2)) (s.acc, []) ∧
    results.length ≤ data.length ∧
    exec (.feed data) s = .next { s with acc := acc, responses := s.responses ++
      [0x00 :: (le32 (BitVec.ofNat 32 results.length) ++ (results.map resultRecord).flatten)] }

/-- R28, R153, R155: what FEED does with one byte: a delimiter ends the candidate whatever the limit; another byte is appended, unless
ACC has reached MAX_ACCUM (when not 0) or the capacity (when a number), when ACC is cleared, the byte discarded and ResourceExceeded
reported. -/
def Obligations.FeedOneByte : Prop :=
  ∀ (b : Byte) (s : State),
    (b = 0x00 → exec (.feed [b]) s = .next { s with acc := [], responses := s.responses ++
      [[0x00, 0x01, 0x00, 0x00, 0x00] ++ resultRecord (decodeFrame (s.acc ++ [0x00]))] }) ∧
    (b ≠ 0x00 →
      (s.maxAccum ≠ 0 ∧ s.maxAccum.toNat ≤ s.acc.length) ∨ (∃ c, s.accCapacity = some c ∧ c ≤ s.acc.length) →
      exec (.feed [b]) s = .next { s with acc := [], responses := s.responses ++ [[0x00, 0x01, 0x00, 0x00, 0x00, 0x08]] }) ∧
    (b ≠ 0x00 → (s.maxAccum = 0 ∨ s.acc.length < s.maxAccum.toNat) → (∀ c, s.accCapacity = some c → s.acc.length < c) →
      exec (.feed [b]) s = .next { s with acc := s.acc ++ [b], responses := s.responses ++ [[0x00, 0x00, 0x00, 0x00, 0x00]] })

/-- R156: one FEED of `a ++ b` leaves the ACC and gives the results of a FEED of `a` and a FEED of `b`. -/
def Obligations.FeedComposes : Prop :=
  ∀ (a b : Bytes) (s : State), ∃ (mid last : Bytes) (ra rb : List FrameResult) (t : State),
    t = { s with acc := mid, responses := s.responses ++ [feedResponse ra] } ∧ exec (.feed a) s = .next t ∧
    exec (.feed b) t = .next { t with acc := last, responses := t.responses ++ [feedResponse rb] } ∧
    exec (.feed (a ++ b)) s = .next { s with acc := last, responses := s.responses ++ [feedResponse (ra ++ rb)] }

/-- R157: after any 0x00 byte ACC is empty, and the bytes after it are taken as if they were the first. -/
def Obligations.ReaderRecoversAtEveryDelimiter : Prop :=
  ∀ (limit : Option Nat) (acc a b : Bytes),
    (feedBytes limit acc (a ++ [0x00])).1 = [] ∧
    feedBytes limit acc (a ++ [0x00] ++ b) =
      ((feedBytes limit [] b).1, (feedBytes limit acc (a ++ [0x00])).2 ++ (feedBytes limit [] b).2)

/-- R158, R153: from an ACC with no 0x00 byte, at every 0x00 of the operand, the bytes before it `p`, the candidate is the ACC that `p`
leaves and the delimiter: that ACC holds no 0x00; the result at that place is the candidate's decode, which is not NoDelimiter; the COBS
decoder can fail on that ACC only as Truncated, reported as CobsInvalid. Every result but a ResourceExceeded is such a decode, and none
is NoDelimiter or Truncated. -/
def Obligations.FeedCandidatesHoldOneZero : Prop :=
  ∀ (limit : Option Nat) (acc data : Bytes), (∀ b ∈ acc, b ≠ 0x00) →
    (∀ b ∈ (feedBytes limit acc data).1, b ≠ 0x00) ∧
    (∀ p q : Bytes, data = p ++ [0x00] ++ q →
      (∀ b ∈ (feedBytes limit acc p).1, b ≠ 0x00) ∧
      (feedBytes limit acc data).2 =
        (feedBytes limit acc p).2 ++ [decodeFrame ((feedBytes limit acc p).1 ++ [0x00])] ++ (feedBytes limit [] q).2 ∧
      decodeFrame ((feedBytes limit acc p).1 ++ [0x00]) ≠ .error .noDelimiter ∧
      (∀ e, cobsDecode (feedBytes limit acc p).1 = .error e →
        e = .truncated ∧ decodeFrame ((feedBytes limit acc p).1 ++ [0x00]) = .error .cobsInvalid)) ∧
    (∀ r ∈ (feedBytes limit acc data).2, r ≠ .error .noDelimiter ∧ r ≠ .error .truncated ∧
      (r = .error .resourceExceeded ∨
        ∃ p q : Bytes, data = p ++ [0x00] ++ q ∧ r = decodeFrame ((feedBytes limit acc p).1 ++ [0x00])))

/-- R159, R153, R155: one result for each 0x00 byte of the operand and one ResourceExceeded for each byte discarded, the discarded bytes
counted themselves (`discardedBytes`); with no limit none is discarded. In arrival order: the byte `b` after `p` adds its decode, or its
ResourceExceeded, or nothing, right after the results of `p` and before those of the bytes after it. -/
def Obligations.FeedResultCount : Prop :=
  ∀ (limit : Option Nat) (acc data : Bytes),
    (feedBytes limit acc data).2.length = data.count 0x00 + discardedBytes limit acc data ∧
    (feedBytes limit acc data).2.countP (fun r => r = .error .resourceExceeded) = discardedBytes limit acc data ∧
    (limit = none → (feedBytes limit acc data).2.length = data.count 0x00) ∧
    (∀ (p q : Bytes) (b : Byte), data = p ++ b :: q →
      (feedBytes limit acc data).2 = (feedBytes limit acc p).2 ++
        (if b = 0x00 then [decodeFrame ((feedBytes limit acc p).1 ++ [0x00])]
          else if limitReached limit (feedBytes limit acc p).1 = true then [.error .resourceExceeded] else []) ++
        (feedBytes limit (feedBytes limit acc (p ++ [b])).1 q).2)

/-- R160: a proper prefix of a wire frame gives no result and stays in ACC; the rest then gives exactly its decode. -/
def Obligations.FeedOfAPrefix : Prop :=
  ∀ (type : Byte) (seq ack : BitVec 32) (flags src dst : Byte) (body p q : Bytes) (s : State),
    encodeFrame type seq ack flags src dst body = .ok (p ++ q) → q ≠ [] → s.acc = [] → s.maxAccum = 0 → s.accCapacity = none →
    ∃ t : State, t = { s with acc := p, responses := s.responses ++ [feedResponse []] } ∧ exec (.feed p) s = .next t ∧
      exec (.feed q) t = .next { t with acc := [], responses := t.responses ++ [feedResponse [decodeFrame (p ++ q)]] }

/-- R161: two wire frames in one FEED give exactly two results in arrival order. (R161 names no limit; with one, each frame must fit
it, by R155.) -/
def Obligations.FeedOfTwoFrames : Prop :=
  ∀ (type type' : Byte) (seq ack seq' ack' : BitVec 32) (flags src dst flags' src' dst' : Byte) (body body' v w : Bytes)
    (s : State),
    encodeFrame type seq ack flags src dst body = .ok v → encodeFrame type' seq' ack' flags' src' dst' body' = .ok w →
    s.acc = [] → (∀ l, s.limit = some l → v.length ≤ l + 1 ∧ w.length ≤ l + 1) →
    exec (.feed (v ++ w)) s = .next { s with acc := [], responses := s.responses ++
      [feedResponse [decodeFrame v, decodeFrame w]] }

/-! ### Control commands -/

/-- R170: RDR_CLEAR empties ACC, keeps MAX_ACCUM and answers the status alone. -/
def Obligations.RdrClearAnswers : Prop :=
  ∀ s : State, exec .rdrClear s = .next { s with acc := [], responses := s.responses ++ [[0x00]] }

/-- R171, R226: MAXACC_WR writes the register and leaves ACC; 0 leaves the capacity as the only limit; a value below the length of ACC
acts at the next byte: a non-delimiter clears ACC with ResourceExceeded, a delimiter decodes all of ACC. -/
def Obligations.MaxaccWrAnswers : Prop :=
  ∀ (value : BitVec 32) (s : State), ∃ t : State,
    t = { s with maxAccum := value, responses := s.responses ++ [[0x00]] } ∧ exec (.maxaccWr value) s = .next t ∧
    (value = 0 → t.limit = s.accCapacity) ∧
    (value ≠ 0 → value.toNat < s.acc.length → ∀ b : Byte, b ≠ 0x00 → exec (.feed [b]) t =
      .next { t with acc := [], responses := t.responses ++ [feedResponse [.error .resourceExceeded]] }) ∧
    exec (.feed [0x00]) t =
      .next { t with acc := [], responses := t.responses ++ [feedResponse [decodeFrame (s.acc ++ [0x00])]] }

/-- R172, R29: MAXACC_RD answers the register, little-endian: the value last written, or 0 after reset; not the effective limit. -/
def Obligations.MaxaccRdAnswers : Prop :=
  (∀ s : State, exec .maxaccRd s = .next { s with responses := s.responses ++
    [[0x00, s.maxAccum.extractLsb' 0 8, s.maxAccum.extractLsb' 8 8, s.maxAccum.extractLsb' 16 8,
      s.maxAccum.extractLsb' 24 8]] }) ∧
  exec .maxaccRd State.reset = .next { State.reset with responses := [[0x00, 0x00, 0x00, 0x00, 0x00]] } ∧
  (∀ s : State, ∃ t : State, exec (.maxaccWr 0x12345678) s = .next t ∧
    exec .maxaccRd t = .next { t with responses := t.responses ++ [[0x00, 0x78, 0x56, 0x34, 0x12]] })

/-- R173, R30: STATUS_RD answers the length of ACC, saturated; it is 0 after reset, after RDR_CLEAR, after a FEED whose last byte is
0x00, and after a ResourceExceeded that ended a FEED. -/
def Obligations.StatusRdAnswers : Prop :=
  (∀ s : State, ∃ n : BitVec 32, n.toNat = min s.acc.length 0xFFFFFFFF ∧
    exec .statusRd s = .next { s with responses := s.responses ++ [0x00 :: le32 n] }) ∧
  (∀ s t : State, s = State.reset ∨ (∃ u, exec .rdrClear u = .next s) ∨
      (∃ data u, exec (.feed (data ++ [0x00])) u = .next s) ∨
      (∃ data b u, b ≠ 0x00 ∧ limitReached u.limit (feedBytes u.limit u.acc data).1 = true ∧
        exec (.feed (data ++ [b])) u = .next s) →
    exec .statusRd s = .next t → t.responses = s.responses ++ [[0x00, 0x00, 0x00, 0x00, 0x00]])

/-! ### Syntax and pseudo-instructions -/

/-- R67, R89: the pseudo-instructions expand as their rows say, and CMD_FRAME_ENC is refused where `cmd_body` is not defined. -/
def Obligations.PseudoInstructions : Prop :=
  (∀ b : Byte, feedByteCommand b = .feed [b]) ∧ noLimitCommand = .maxaccWr 0 ∧
  (∀ (seq ack : BitVec 32) (flags src dst : Byte) (cmd : BitVec 16) (data : Bytes), data.length ≤ 65535 →
    cmdFrameEncCommand seq ack flags src dst cmd data = some (.frameEnc 2 seq ack flags src dst
      (le16 cmd ++ le16 (BitVec.ofNat 16 data.length) ++ data))) ∧
  (∀ (seq ack : BitVec 32) (flags src dst : Byte) (cmd : BitVec 16) (data : Bytes), 65535 < data.length →
    cmdFrameEncCommand seq ack flags src dst cmd data = none)

/-- R88, R89: lines of the spec's programs assemble to the records the spec prints beside them. -/
def Obligations.ProgramLinesAssemble : Prop :=
  assembleRecords "MAXACC_WR 4\nFEED [01 02 03 04 05 06 00]\nMAXACC_RD ; the register\nFEED_BYTE 00\nNO_LIMIT" = some
    [[0x0A, 0x04, 0x00, 0x00, 0x00], [0x08, 0x07, 0x00, 0x00, 0x00, 0x01, 0x02, 0x03, 0x04, 0x05, 0x06, 0x00], [0x0B],
     [0x08, 0x01, 0x00, 0x00, 0x00, 0x00], [0x0A, 0x00, 0x00, 0x00, 0x00]] ∧
  assembleRecords "FRAME_ENC 2, 1, 0, 1, 0xC0, 0xA1, [00 00 00 00]" = some
    [[0x06, 0x02, 0x01, 0x00, 0x00, 0x00, 0x00, 0x00, 0x00, 0x00, 0x01, 0xC0, 0xA1, 0x04, 0x00, 0x00, 0x00, 0x00, 0x00,
      0x00, 0x00]]
end

