-- ==== Sys2Proof/Laws/Operands.lean ====
section
/-! SUPPORT. The little-endian helpers read back what they write, both ways round, and the lengths of what they write. -/

namespace Sys2Proof.Machine

@[simp] theorem le16_length (v : BitVec 16) : (le16 v).length = 2 := rfl

@[simp] theorem le32_length (v : BitVec 32) : (le32 v).length = 4 := rfl

@[simp] theorem byteAt_cons_zero (b : Byte) (xs : Bytes) : byteAt (b :: xs) 0 = b := rfl

@[simp] theorem byteAt_cons_succ (b : Byte) (xs : Bytes) (i : Nat) : byteAt (b :: xs) (i + 1) = byteAt xs i := rfl

theorem byteAt_append_left {xs : Bytes} (ys : Bytes) {i : Nat} (h : i < xs.length) :
    byteAt (xs ++ ys) i = byteAt xs i := by
  simp [byteAt, List.getElem?_append_left h]

theorem byteAt_append_right {xs : Bytes} (ys : Bytes) {i : Nat} (h : xs.length ≤ i) :
    byteAt (xs ++ ys) i = byteAt ys (i - xs.length) := by
  simp [byteAt, List.getElem?_append_right h]

@[simp] theorem slice_length (xs : Bytes) (a b : Nat) : (slice xs a b).length = min (b - a) (xs.length - a) := by
  simp [slice]

/-- A `rd16` at an offset past a prefix is a `rd16` of what follows. -/
theorem rd16_append (pre xs : Bytes) (o : Nat) : rd16 (pre ++ xs) (pre.length + o) = rd16 xs o := by
  simp [rd16, byteAt, List.getElem?_append_right, Nat.add_assoc]

/-- A `rd32` at an offset past a prefix is a `rd32` of what follows. -/
theorem rd32_append (pre xs : Bytes) (o : Nat) : rd32 (pre ++ xs) (pre.length + o) = rd32 xs o := by
  simp [rd32, byteAt, List.getElem?_append_right, Nat.add_assoc]

/-- `rd16` reads back `le16`. -/
@[simp] theorem rd16_le16 (v : BitVec 16) (ys : Bytes) : rd16 (le16 v ++ ys) 0 = v := by
  apply BitVec.eq_of_getLsbD_eq
  intro i hi
  simp only [rd16, le16, List.cons_append, List.nil_append, byteAt_cons_zero, byteAt_cons_succ, BitVec.getLsbD_or,
    BitVec.getLsbD_setWidth, BitVec.getLsbD_shiftLeft, BitVec.getLsbD_extractLsb', hi]
  interval_cases i <;> simp

/-- `rd32` reads back `le32`. -/
@[simp] theorem rd32_le32 (v : BitVec 32) (ys : Bytes) : rd32 (le32 v ++ ys) 0 = v := by
  apply BitVec.eq_of_getLsbD_eq
  intro i hi
  simp only [rd32, le32, List.cons_append, List.nil_append, byteAt_cons_zero, byteAt_cons_succ, BitVec.getLsbD_or,
    BitVec.getLsbD_setWidth, BitVec.getLsbD_shiftLeft, BitVec.getLsbD_extractLsb', hi]
  interval_cases i <;> simp

/-- `le16` writes back the two bytes `rd16` reads. -/
theorem le16_rd16 (a b : Byte) (ys : Bytes) : le16 (rd16 (a :: b :: ys) 0) = [a, b] := by
  simp only [le16, rd16, byteAt_cons_zero, byteAt_cons_succ, List.cons.injEq, and_true]
  refine ⟨BitVec.eq_of_getLsbD_eq fun i hi => ?_, BitVec.eq_of_getLsbD_eq fun i hi => ?_⟩ <;>
    · simp only [BitVec.getLsbD_or, BitVec.getLsbD_setWidth, BitVec.getLsbD_shiftLeft, BitVec.getLsbD_extractLsb', hi]
      interval_cases i <;> simp

/-- `le32` writes back the four bytes `rd32` reads. -/
theorem le32_rd32 (a b c d : Byte) (ys : Bytes) : le32 (rd32 (a :: b :: c :: d :: ys) 0) = [a, b, c, d] := by
  simp only [le32, rd32, byteAt_cons_zero, byteAt_cons_succ, List.cons.injEq, and_true]
  refine ⟨BitVec.eq_of_getLsbD_eq fun i hi => ?_, BitVec.eq_of_getLsbD_eq fun i hi => ?_,
    BitVec.eq_of_getLsbD_eq fun i hi => ?_, BitVec.eq_of_getLsbD_eq fun i hi => ?_⟩ <;>
    · simp only [BitVec.getLsbD_or, BitVec.getLsbD_setWidth, BitVec.getLsbD_shiftLeft, BitVec.getLsbD_extractLsb', hi]
      interval_cases i <;> simp

end Sys2Proof.Machine
end

