-- ==== Sys2Proof/Laws/State.lean ====
section
/-! SUPPORT. One lemma for each field under each update of the state, and what depends on the fields under each update, so that no
later proof unfolds a record update. -/

namespace Sys2Proof.Machine

variable (s : State)

@[simp] theorem State.setAcc_acc (v : Bytes) : (s.setAcc v).acc = v := rfl
@[simp] theorem State.setAcc_maxAccum (v : Bytes) : (s.setAcc v).maxAccum = s.maxAccum := rfl
@[simp] theorem State.setAcc_accCapacity (v : Bytes) : (s.setAcc v).accCapacity = s.accCapacity := rfl
@[simp] theorem State.setAcc_inputs (v : Bytes) : (s.setAcc v).inputs = s.inputs := rfl
@[simp] theorem State.setAcc_responses (v : Bytes) : (s.setAcc v).responses = s.responses := rfl

@[simp] theorem State.setMaxAccum_acc (v : BitVec 32) : (s.setMaxAccum v).acc = s.acc := rfl
@[simp] theorem State.setMaxAccum_maxAccum (v : BitVec 32) : (s.setMaxAccum v).maxAccum = v := rfl
@[simp] theorem State.setMaxAccum_accCapacity (v : BitVec 32) : (s.setMaxAccum v).accCapacity = s.accCapacity := rfl
@[simp] theorem State.setMaxAccum_inputs (v : BitVec 32) : (s.setMaxAccum v).inputs = s.inputs := rfl
@[simp] theorem State.setMaxAccum_responses (v : BitVec 32) : (s.setMaxAccum v).responses = s.responses := rfl

@[simp] theorem State.setInputs_acc (v : List HostInput) : (s.setInputs v).acc = s.acc := rfl
@[simp] theorem State.setInputs_maxAccum (v : List HostInput) : (s.setInputs v).maxAccum = s.maxAccum := rfl
@[simp] theorem State.setInputs_accCapacity (v : List HostInput) : (s.setInputs v).accCapacity = s.accCapacity := rfl
@[simp] theorem State.setInputs_inputs (v : List HostInput) : (s.setInputs v).inputs = v := rfl
@[simp] theorem State.setInputs_responses (v : List HostInput) : (s.setInputs v).responses = s.responses := rfl

@[simp] theorem State.respond_acc (r : Bytes) : (s.respond r).acc = s.acc := rfl
@[simp] theorem State.respond_maxAccum (r : Bytes) : (s.respond r).maxAccum = s.maxAccum := rfl
@[simp] theorem State.respond_accCapacity (r : Bytes) : (s.respond r).accCapacity = s.accCapacity := rfl
@[simp] theorem State.respond_inputs (r : Bytes) : (s.respond r).inputs = s.inputs := rfl
@[simp] theorem State.respond_responses (r : Bytes) : (s.respond r).responses = s.responses ++ [r] := rfl

@[simp] theorem State.deliver_acc (x : HostInput) : (s.deliver x).acc = s.acc := rfl
@[simp] theorem State.deliver_maxAccum (x : HostInput) : (s.deliver x).maxAccum = s.maxAccum := rfl
@[simp] theorem State.deliver_accCapacity (x : HostInput) : (s.deliver x).accCapacity = s.accCapacity := rfl
@[simp] theorem State.deliver_inputs (x : HostInput) : (s.deliver x).inputs = s.inputs ++ [x] := rfl
@[simp] theorem State.deliver_responses (x : HostInput) : (s.deliver x).responses = s.responses := rfl

@[simp] theorem State.setAcc_limit (v : Bytes) : (s.setAcc v).limit = s.limit := rfl
@[simp] theorem State.setMaxAccum_limit (v : BitVec 32) : (s.setMaxAccum v).limit = effectiveLimit v s.accCapacity := rfl
@[simp] theorem State.setInputs_limit (v : List HostInput) : (s.setInputs v).limit = s.limit := rfl
@[simp] theorem State.respond_limit (r : Bytes) : (s.respond r).limit = s.limit := rfl
@[simp] theorem State.deliver_limit (x : HostInput) : (s.deliver x).limit = s.limit := rfl

@[simp] theorem State.setMaxAccum_accLen (v : BitVec 32) : (s.setMaxAccum v).accLen = s.accLen := rfl
@[simp] theorem State.setInputs_accLen (v : List HostInput) : (s.setInputs v).accLen = s.accLen := rfl
@[simp] theorem State.respond_accLen (r : Bytes) : (s.respond r).accLen = s.accLen := rfl
@[simp] theorem State.deliver_accLen (x : HostInput) : (s.deliver x).accLen = s.accLen := rfl

@[simp] theorem State.reset_acc : State.reset.acc = [] := rfl
@[simp] theorem State.reset_maxAccum : State.reset.maxAccum = 0 := rfl
@[simp] theorem State.reset_accCapacity : State.reset.accCapacity = none := rfl
@[simp] theorem State.reset_inputs : State.reset.inputs = [] := rfl
@[simp] theorem State.reset_responses : State.reset.responses = [] := rfl

/-- Two states with the same fields are the same state. -/
theorem State.ext_fields {s t : State} (hacc : s.acc = t.acc) (hmax : s.maxAccum = t.maxAccum)
    (hcap : s.accCapacity = t.accCapacity) (hin : s.inputs = t.inputs) (hresp : s.responses = t.responses) : s = t := by
  cases s; cases t; simp_all

end Sys2Proof.Machine
end

