-- ==== Sys2Proof/Laws/Ops.lean ====
section
/-! SUPPORT. One spec lemma for each shared operation: what it can answer, for later proofs to cite instead of unfolding it. -/

namespace Sys2Proof.Machine

/-! The length field and the effective limit. -/

@[simp] theorem lengthField_length (out : Bytes) : (lengthField out).length = 4 := rfl

/-- The length field of an output of at most 2^32-1 bytes. -/
theorem lengthField_of_lt {out : Bytes} (h : out.length < 2 ^ 32) :
    lengthField out = le32 (BitVec.ofNat 32 out.length) := by
  unfold lengthField; rw [if_pos h]

@[simp] theorem effectiveLimit_zero (cap : Option Nat) : effectiveLimit 0#32 cap = cap := by simp [effectiveLimit]

theorem effectiveLimit_register {m : BitVec 32} (h : m ≠ 0) : effectiveLimit m none = some m.toNat := by
  unfold effectiveLimit; rw [if_neg h]

theorem effectiveLimit_both {m : BitVec 32} (h : m ≠ 0) (c : Nat) :
    effectiveLimit m (some c) = some (min m.toNat c) := by
  unfold effectiveLimit; rw [if_neg h]

/-- The limit never exceeds the capacity. -/
theorem effectiveLimit_le_capacity {m : BitVec 32} {c : Nat} :
    ∃ l, effectiveLimit m (some c) = some l ∧ l ≤ c := by
  by_cases h : m = 0
  · exact ⟨c, by simp [h], Nat.le_refl c⟩
  · exact ⟨min m.toNat c, effectiveLimit_both h c, Nat.min_le_right _ _⟩

/-- R7, R101: the final XOR is with 0, so there is none. -/
theorem crc16_xorOut (xs : Bytes) : crc16 xs ^^^ Config.crcXorOut = crc16 xs := by simp [Config.crcXorOut]

/-! The decode pipeline, one lemma for each step that can end it. -/

theorem decodeFrame_noDelimiter {w : Bytes} (h : w.getLast? ≠ some Config.cobsDelim) :
    decodeFrame w = .error .noDelimiter := by
  unfold decodeFrame; rw [if_pos h]

/-- A candidate with its delimiter goes to the COBS decoder without it; what decodes goes on to step 3. -/
theorem decodeFrame_of_ok {y d : Bytes} (h : cobsDecode y = .ok d) :
    decodeFrame (y ++ [Config.cobsDelim]) = decodeFull d := by
  unfold decodeFrame; simp [slice, h]

/-- Every COBS failure of a candidate is CobsInvalid. -/
theorem decodeFrame_of_error {y : Bytes} {e : FrameError} (h : cobsDecode y = .error e) :
    decodeFrame (y ++ [Config.cobsDelim]) = .error .cobsInvalid := by
  unfold decodeFrame; simp [slice, h]

theorem decodeFull_tooShort {d : Bytes} (h : d.length < 2) : decodeFull d = .error .tooShort := by
  unfold decodeFull; rw [if_pos (by simpa [Config.crcLen] using h)]

/-- The pipeline past step 3, on a payload followed by two CRC bytes. -/
theorem decodeFull_append (payload : Bytes) (received : BitVec 16) :
    decodeFull (payload ++ le16 received) =
      if received ≠ crc16 payload then .error (.crcMismatch received (crc16 payload)) else decodePayload payload := by
  have hrd : rd16 (payload ++ le16 received) payload.length = received := by
    simpa using (rd16_append payload (le16 received ++ []) 0).trans (rd16_le16 received [])
  simp [decodeFull, Config.crcLen, slice, hrd]

/-! The reader's byte step. -/

theorem feedByte_delimiter (limit : Option Nat) (acc : Bytes) :
    feedByte limit acc 0x00 = ([], [decodeFrame (acc ++ [0x00])]) := rfl

theorem feedByte_exceeds {limit : Option Nat} {acc : Bytes} {b : Byte} (hb : b ≠ 0x00)
    (h : limitReached limit acc = true) : feedByte limit acc b = ([], [.error .resourceExceeded]) := by
  unfold feedByte; rw [if_neg (show b ≠ Config.cobsDelim from hb), if_pos h]

theorem feedByte_appends {limit : Option Nat} {acc : Bytes} {b : Byte} (hb : b ≠ 0x00)
    (h : limitReached limit acc = false) : feedByte limit acc b = (acc ++ [b], []) := by
  unfold feedByte; rw [if_neg (show b ≠ Config.cobsDelim from hb), if_neg (by simp [h])]

/-- Everything one byte can do. -/
theorem feedByte_cases (limit : Option Nat) (acc : Bytes) (b : Byte) :
    (b = 0x00 ∧ feedByte limit acc b = ([], [decodeFrame (acc ++ [0x00])])) ∨
    (b ≠ 0x00 ∧ limitReached limit acc = true ∧ feedByte limit acc b = ([], [.error .resourceExceeded])) ∨
    (b ≠ 0x00 ∧ limitReached limit acc = false ∧ feedByte limit acc b = (acc ++ [b], [])) := by
  by_cases hb : b = 0x00
  · exact .inl ⟨hb, by subst hb; rfl⟩
  · cases h : limitReached limit acc with
    | true => exact .inr (.inl ⟨hb, rfl, feedByte_exceeds hb h⟩)
    | false => exact .inr (.inr ⟨hb, rfl, feedByte_appends hb h⟩)

@[simp] theorem feedBytes_nil (limit : Option Nat) (acc : Bytes) : feedBytes limit acc [] = (acc, []) := rfl

theorem feedBytes_cons (limit : Option Nat) (acc : Bytes) (b : Byte) (bs : Bytes) :
    feedBytes limit acc (b :: bs) =
      ((feedBytes limit (feedByte limit acc b).1 bs).1,
        (feedByte limit acc b).2 ++ (feedBytes limit (feedByte limit acc b).1 bs).2) := rfl

end Sys2Proof.Machine
end

