-- ==== Sys2Proof/Laws/Discarded.lean ====
section
/-! SUPPORT. The small lemmas of `discardedBytes`: no byte, one byte more, and no limit. -/

namespace Sys2Proof.Machine

@[simp] theorem limitReached_none (acc : Bytes) : limitReached none acc = false := rfl

@[simp] theorem discardedBytes_nil (limit : Option Nat) (acc : Bytes) : discardedBytes limit acc [] = 0 := rfl

/-- The first byte is discarded or not; the others are counted from the ACC it leaves. -/
theorem discardedBytes_cons (limit : Option Nat) (acc : Bytes) (b : Byte) (bs : Bytes) :
    discardedBytes limit acc (b :: bs) =
      (if b ≠ 0x00 ∧ limitReached limit acc = true then 1 else 0) +
        discardedBytes limit (feedByte limit acc b).1 bs := by
  unfold discardedBytes
  rw [List.length_cons, List.range_succ_eq_map, List.countP_cons, List.countP_map, Nat.add_comm]
  congr 1
  simp

/-- With no limit nothing is discarded. -/
@[simp] theorem discardedBytes_none (acc data : Bytes) : discardedBytes none acc data = 0 := by
  simp [discardedBytes]

end Sys2Proof.Machine
end

