-- ==== Sys2Proof/Laws/PerInstr.lean ====
section
/-! SUPPORT. The statements made once for each constructor of `Instr`. `EncodeHead`: the record of a well-formed command begins with
the code of its own row of the opcode map, and its length is the one that row's format asks for (30_encoding.md R80, R82, R83). -/

namespace Sys2Proof.Laws.EncodeHead

open Sys2Proof.Machine

/-- The record of `i` begins with the code of a row of the opcode map that selects `i`'s mnemonic, and passes that row's length
test. -/
def Statement (i : Instr) : Prop :=
  i.WellFormed → ∃ row bytes, encode i = row.code :: bytes ∧ rowOf row.code = some row ∧ row.op = i.op ∧
    lengthMatches row.format (encode i) = true

/-- LEN reads back from a format B record. -/
theorem lengthMatches_b (op : Byte) {data : Bytes} (h : fitsLength data = true) :
    lengthMatches .b (op :: lengthPrefixed data) = true := by
  have hlt : data.length < 4294967296 := by simpa [fitsLength] using h
  have hrd : rd32 (op :: lengthPrefixed data) 1 = BitVec.ofNat 32 data.length := by
    apply BitVec.eq_of_getLsbD_eq
    intro i hi
    simp only [rd32, lengthPrefixed, le32, List.cons_append, List.nil_append, byteAt, List.getD_cons_succ, List.getD_cons_zero,
      BitVec.getLsbD_or, BitVec.getLsbD_setWidth, BitVec.getLsbD_shiftLeft, BitVec.getLsbD_extractLsb', hi]
    interval_cases i <;> simp
  simp only [lengthMatches, hrd]
  simp [lengthPrefixed, le32, Nat.mod_eq_of_lt hlt]
  omega

/-- LEN reads back from a format F record. -/
theorem lengthMatches_f (op type flags src dst : Byte) (seq ack : BitVec 32) {body : Bytes} (h : fitsLength body = true) :
    lengthMatches .f (op :: type :: (le32 seq ++ le32 ack ++ [flags, src, dst] ++ lengthPrefixed body)) = true := by
  have hlt : body.length < 4294967296 := by simpa [fitsLength] using h
  have hrd : rd32 (op :: type :: (le32 seq ++ le32 ack ++ [flags, src, dst] ++ lengthPrefixed body)) 13 =
      BitVec.ofNat 32 body.length := by
    apply BitVec.eq_of_getLsbD_eq
    intro i hi
    simp only [rd32, lengthPrefixed, le32, List.cons_append, List.nil_append, byteAt, List.getD_cons_succ, List.getD_cons_zero,
      BitVec.getLsbD_or, BitVec.getLsbD_setWidth, BitVec.getLsbD_shiftLeft, BitVec.getLsbD_extractLsb', hi]
    interval_cases i <;> simp
  simp only [lengthMatches, hrd]
  simp [lengthPrefixed, le32, Nat.mod_eq_of_lt hlt]
  omega

theorem crc16 (data : Bytes) : Statement (.crc16 data) := fun h =>
  ⟨⟨0x01, 0xFF, .crc16, .b⟩, _, rfl, by decide, rfl, lengthMatches_b 0x01 h⟩

theorem cobsEnc (data : Bytes) : Statement (.cobsEnc data) := fun h =>
  ⟨⟨0x02, 0xFF, .cobsEnc, .b⟩, _, rfl, by decide, rfl, lengthMatches_b 0x02 h⟩

theorem cobsDec (data : Bytes) : Statement (.cobsDec data) := fun h =>
  ⟨⟨0x03, 0xFF, .cobsDec, .b⟩, _, rfl, by decide, rfl, lengthMatches_b 0x03 h⟩

theorem hdrPack (h : Header) : Statement (.hdrPack h) := fun _ =>
  ⟨⟨0x04, 0xFF, .hdrPack, .h⟩, _, rfl, by decide, rfl, by simp [lengthMatches, encode, le16, le32]⟩

theorem hdrUnpack (v : Bytes) : Statement (.hdrUnpack v) := fun h =>
  ⟨⟨0x05, 0xFF, .hdrUnpack, .v⟩, v, rfl, by decide, rfl, by
    simpa [lengthMatches, encode, Instr.WellFormed, Instr.wellFormed, Config.hdrLen] using h⟩

theorem frameEnc (type : Byte) (seq ack : BitVec 32) (flags src dst : Byte) (body : Bytes) :
    Statement (.frameEnc type seq ack flags src dst body) := fun h =>
  ⟨⟨0x06, 0xFF, .frameEnc, .f⟩, _, rfl, by decide, rfl, lengthMatches_f 0x06 type flags src dst seq ack h⟩

theorem frameDec (wire : Bytes) : Statement (.frameDec wire) := fun h =>
  ⟨⟨0x07, 0xFF, .frameDec, .b⟩, _, rfl, by decide, rfl, lengthMatches_b 0x07 h⟩

theorem feed (data : Bytes) : Statement (.feed data) := fun h =>
  ⟨⟨0x08, 0xFF, .feed, .b⟩, _, rfl, by decide, rfl, lengthMatches_b 0x08 h⟩

theorem rdrClear : Statement .rdrClear := fun _ =>
  ⟨⟨0x09, 0xFF, .rdrClear, .n⟩, [], rfl, by decide, rfl, by decide⟩

theorem maxaccWr (value : BitVec 32) : Statement (.maxaccWr value) := fun _ =>
  ⟨⟨0x0A, 0xFF, .maxaccWr, .w⟩, _, rfl, by decide, rfl, by simp [lengthMatches, encode, le32]⟩

theorem maxaccRd : Statement .maxaccRd := fun _ =>
  ⟨⟨0x0B, 0xFF, .maxaccRd, .n⟩, [], rfl, by decide, rfl, by decide⟩

theorem statusRd : Statement .statusRd := fun _ =>
  ⟨⟨0x0C, 0xFF, .statusRd, .n⟩, [], rfl, by decide, rfl, by decide⟩

end Sys2Proof.Laws.EncodeHead
end

