-- ==== Sys2Proof/Tests/Slice0.lean ====
section
/-! SUPPORT. The model's own tests. Expected results are the vectors of 95_test_vectors.md (section named at each test) or the worked
examples of the rule named. Each runs one step or one decode. The `witness_` theorems show that the hypotheses of a statement can be
met together. -/

namespace Sys2Proof.Tests

open Sys2Proof Sys2Proof.Machine

/-- A block with this ACC and MAX_ACCUM, to which the host has issued one input. -/
def blockWith (acc : Bytes) (maxAccum : BitVec 32) (x : HostInput) : State :=
  { acc := acc, maxAccum := maxAccum, accCapacity := none, inputs := [x], responses := [] }

/-- One step on one command record: the responses, ACC and MAX_ACCUM after it. -/
def answers (acc : Bytes) (maxAccum : BitVec 32) (record : Bytes) : Option (List Bytes × Bytes × BitVec 32) :=
  match step (blockWith acc maxAccum (.record record)) with
  | .next t => some (t.responses, t.acc, t.maxAccum)
  | .fault _ => none
  | .refused _ => none

/-- The wire frame F1 of section 2.5. -/
def frameF1 : Bytes :=
  [0x06, 0x5A, 0xA1, 0x01, 0x02, 0x01, 0x01, 0x01, 0x01, 0x01, 0x01, 0x01, 0x04, 0x01, 0xC0, 0xA1, 0x01, 0x01, 0x01, 0x01, 0x03,
   0xAA, 0x36, 0x00]

/-- The result record of F1 (section 2.6). -/
def recordF1 : Bytes :=
  [0x00, 0x00, 0x5A, 0xA1, 0x01, 0x02, 0x01, 0, 0, 0, 0, 0, 0, 0, 0x01, 0xC0, 0xA1, 0x00, 0x04, 0, 0, 0, 0, 0, 0, 0]

/-! Well-formedness: an ill-formed term for each check, refused. -/

theorem test_wellFormed_refuses_fifteen_bytes : (Instr.hdrUnpack (List.replicate 15 0)).wellFormed = false := by decide

theorem test_fitsLength_refuses_long_data : fitsLength (List.replicate (2 ^ 32) 0) = false := by
  unfold fitsLength; rw [List.length_replicate]; decide

theorem test_wellFormed_refuses_long_data :
    (Instr.crc16 (List.replicate (2 ^ 32) 0)).wellFormed = false ∧ (Instr.cobsEnc (List.replicate (2 ^ 32) 0)).wellFormed = false ∧
    (Instr.cobsDec (List.replicate (2 ^ 32) 0)).wellFormed = false ∧ (Instr.frameDec (List.replicate (2 ^ 32) 0)).wellFormed = false ∧
    (Instr.feed (List.replicate (2 ^ 32) 0)).wellFormed = false ∧
    (Instr.frameEnc 0 0 0 0 0 0 (List.replicate (2 ^ 32) 0)).wellFormed = false :=
  have h := test_fitsLength_refuses_long_data
  ⟨h, h, h, h, h, h⟩

/-! Decoding: for every constructor, a record written out byte by byte from R80 to R82. -/

theorem test_decode_format_b :
    decode [0x01, 0x02, 0x00, 0x00, 0x00, 0x5A, 0xA1] = .command (.crc16 [0x5A, 0xA1]) ∧
    decode [0x02, 0x04, 0x00, 0x00, 0x00, 0x11, 0x22, 0x00, 0x33] = .command (.cobsEnc [0x11, 0x22, 0x00, 0x33]) ∧
    decode [0x03, 0x01, 0x00, 0x00, 0x00, 0x01] = .command (.cobsDec [0x01]) ∧
    decode [0x07, 0x01, 0x00, 0x00, 0x00, 0x00] = .command (.frameDec [0x00]) ∧
    decode [0x08, 0x02, 0x00, 0x00, 0x00, 0x01, 0x02] = .command (.feed [0x01, 0x02]) := by decide

theorem test_decode_hdrPack :
    decode [0x04, 0x34, 0x12, 0x07, 0x09, 0x04, 0x03, 0x02, 0x01, 0x0D, 0x0C, 0x0B, 0x0A, 0x10, 0x20, 0x30, 0x40] =
      .command (.hdrPack ⟨0x1234, 0x07, 0x09, 0x01020304, 0x0A0B0C0D, 0x10, 0x20, 0x30, 0x40⟩) := by decide

theorem test_decode_hdrUnpack :
    decode [0x05, 1, 2, 3, 4, 5, 6, 7, 8, 9, 10, 11, 12, 13, 14, 15, 16] =
      .command (.hdrUnpack [1, 2, 3, 4, 5, 6, 7, 8, 9, 10, 11, 12, 13, 14, 15, 16]) := by decide

/-- Section 2.5: F1's command record. -/
theorem test_decode_frameEnc :
    decode [0x06, 0x02, 0x01, 0, 0, 0, 0, 0, 0, 0, 0x01, 0xC0, 0xA1, 0x04, 0, 0, 0, 0, 0, 0, 0] =
      .command (.frameEnc 2 1 0 1 0xC0 0xA1 [0, 0, 0, 0]) := by decide

theorem test_decode_formats_n_and_w :
    decode [0x09] = .command .rdrClear ∧ decode [0x0B] = .command .maxaccRd ∧ decode [0x0C] = .command .statusRd ∧
    decode [0x0A, 0x78, 0x56, 0x34, 0x12] = .command (.maxaccWr 0x12345678) := by decide

/-- R84: the illegal records, by name. -/
theorem test_decode_illegal :
    decode [] = .illegal .emptyRecord ∧ decode [0x00] = .illegal (.reservedOp 0x00) ∧
    decode [0x0D] = .illegal (.reservedOp 0x0D) ∧ decode [0xFF, 0, 0, 0, 0] = .illegal (.reservedOp 0xFF) ∧
    decode [0x08, 0x05, 0, 0, 0, 0x01] = .illegal (.wrongLength .feed) ∧ decode [0x01, 0, 0, 0] = .illegal (.wrongLength .crc16) ∧
    decode [0x09, 0x00] = .illegal (.wrongLength .rdrClear) ∧
    decode (0x04 :: List.replicate 15 0) = .illegal (.wrongLength .hdrPack) ∧
    decode (0x06 :: List.replicate 15 0) = .illegal (.wrongLength .frameEnc) := by decide

/-- R82: no two rows of the opcode map select the same byte 0. -/
theorem test_opTable_has_no_overlap : opTable.Pairwise fun q r => q.code &&& r.mask ≠ r.code ∧ r.code &&& q.mask ≠ q.code := by
  decide

/-- Each row of the opcode table, read from its eight bits, is its own command. -/
theorem test_decodeTableWord :
    ((List.range 14).map fun w => (decodeTableWord 8 w).map Instr.op) =
      [none, some .crc16, some .cobsEnc, some .cobsDec, some .hdrPack, some .hdrUnpack, some .frameEnc, some .frameDec, some .feed,
       some .rdrClear, some .maxaccWr, some .maxaccRd, some .statusRd, none] := by decide

/-- A row placed where the step takes its next input is what the step runs: STATUS_RD after reset answers 0 (R173). -/
theorem test_withFetchWord_runs :
    step (State.reset.withFetchWord 8 0x0C) = .next { State.reset with responses := [[0x00, 0, 0, 0, 0]] } := rfl

/-! One step of each command. -/

/-- Section 2.1. -/
theorem test_crc16 :
    answers [] 0 [0x01, 0x09, 0, 0, 0, 0x31, 0x32, 0x33, 0x34, 0x35, 0x36, 0x37, 0x38, 0x39] = some ([[0x00, 0xB1, 0x29]], [], 0) ∧
    answers [7] 5 [0x01, 0x00, 0, 0, 0] = some ([[0x00, 0xFF, 0xFF]], [7], 5) := by decide +kernel

/-- Section 2.1, single steps and single bytes. -/
theorem test_crcStep :
    crcStep 0xFFFF 0x31 = 0xC782 ∧ crcStep 0x0000 0x01 = 0x1021 ∧ crcStep 0x0000 0x80 = 0x9188 ∧ crc16 [0x00] = 0xE1F0 ∧
    crc16 [0xFF] = 0xFF00 ∧ crc16 [0x41] = 0xB915 ∧ crc16 [0x00, 0x00] = 0x1D0F ∧ crc16 [0x5A, 0xA1] = 0x59B0 := by decide +kernel

/-- Section 2.2. -/
theorem test_cobsEnc :
    answers [] 0 [0x02, 0x04, 0, 0, 0, 0x11, 0x22, 0x00, 0x33] =
      some ([[0x00, 0x06, 0, 0, 0, 0x03, 0x11, 0x22, 0x02, 0x33, 0x00]], [], 0) ∧
    cobsEncode [] = [0x01, 0x00] ∧ cobsEncode [0x00, 0x00] = [0x01, 0x01, 0x01, 0x00] ∧
    cobsEncode [0x00, 0x11, 0x00] = [0x01, 0x02, 0x11, 0x01, 0x00] := by decide +kernel

/-- Section 2.2, runs of 254 and 255 non-zero bytes, and the `Emit` form. -/
theorem test_cobsEncode_full_groups :
    cobsEncode (List.replicate 254 0x01) = 0xFF :: (List.replicate 254 0x01 ++ [0x00]) ∧
    cobsEncode (List.replicate 255 0x01) = 0xFF :: (List.replicate 254 0x01 ++ [0x02, 0x01, 0x00]) ∧
    cobsEncode (List.replicate 254 0x01 ++ [0x00]) = 0xFF :: (List.replicate 254 0x01 ++ [0x01, 0x01, 0x00]) ∧
    cobsEncodeWith .emitted (List.replicate 254 0x01) = 0xFF :: (List.replicate 254 0x01 ++ [0x01, 0x00]) := by decide +kernel

/-- Section 2.3. -/
theorem test_cobsDec :
    answers [] 0 [0x03, 0x05, 0, 0, 0, 0x03, 0x11, 0x22, 0x02, 0x33] = some ([[0x00, 0x04, 0, 0, 0, 0x11, 0x22, 0x00, 0x33]], [], 0) ∧
    answers [] 0 [0x03, 0x03, 0, 0, 0, 0x05, 0x11, 0x22] = some ([[0x02]], [], 0) ∧
    answers [] 0 [0x03, 0x03, 0, 0, 0, 0x05, 0x11, 0x00] = some ([[0x01]], [], 0) := by decide +kernel

/-- Section 2.3, on the decoder. -/
theorem test_cobsDecode :
    cobsDecode [] = .ok [] ∧ cobsDecode [0x01] = .ok [] ∧ cobsDecode [0x01, 0x01] = .ok [0x00] ∧
    cobsDecode [0x02, 0x11, 0x01] = .ok [0x11, 0x00] ∧ cobsDecode [0x00] = .error .cobsInvalid ∧
    cobsDecode [0x01, 0x00, 0x01] = .error .cobsInvalid ∧ cobsDecode [0x03, 0x11, 0x00, 0x22] = .error .cobsInvalid ∧
    cobsDecode (0xFF :: List.replicate 254 0x01) = .ok (List.replicate 254 0x01) ∧
    cobsDecode (0xFF :: (List.replicate 254 0x01 ++ [0x01])) = .ok (List.replicate 254 0x01) ∧
    cobsDecode (0xFF :: List.replicate 253 0x01) = .error .truncated := by decide +kernel

/-- Section 2.4. -/
theorem test_hdrPack :
    answers [] 0 [0x04, 0x34, 0x12, 7, 9, 0, 0, 0, 0, 0, 0, 0, 0, 0, 0, 0, 0] =
      some ([[0x00, 0x34, 0x12, 7, 9, 0, 0, 0, 0, 0, 0, 0, 0, 0, 0, 0, 0]], [], 0) := by decide +kernel

/-- Section 2.4: type 9 unknown, then version 2 with the reserved byte kept. -/
theorem test_hdrUnpack :
    answers [] 0 [0x05, 0x5A, 0xA1, 0x01, 0x09, 0x78, 0x56, 0x34, 0x12, 0xF0, 0xDE, 0xBC, 0x9A, 0x00, 0xA1, 0xB1, 0x00] =
      some ([[0x00, 0x01, 0x5A, 0xA1, 0x01, 0x09, 0x78, 0x56, 0x34, 0x12, 0xF0, 0xDE, 0xBC, 0x9A, 0x00, 0xA1, 0xB1, 0x00]], [], 0) ∧
    answers [] 0 [0x05, 0x5A, 0xA1, 0x02, 0x03, 0x05, 0, 0, 0, 0x04, 0, 0, 0, 0xFE, 0xA0, 0xFF, 0x77] =
      some ([[0x00, 0x04, 0x5A, 0xA1, 0x02, 0x03, 0x05, 0, 0, 0, 0x04, 0, 0, 0, 0xFE, 0xA0, 0xFF, 0x77]], [], 0) := by decide +kernel

/-- Section 2.4: the unpacked fields. -/
theorem test_unpackHeader :
    unpackHeader [0x5A, 0xA1, 0x01, 0x09, 0x78, 0x56, 0x34, 0x12, 0xF0, 0xDE, 0xBC, 0x9A, 0x00, 0xA1, 0xB1, 0x00] =
      ⟨0xA15A, 1, 9, 0x12345678, 0x9ABCDEF0, 0, 0xA1, 0xB1, 0⟩ := by decide +kernel

/-- Section 2.5, F1. -/
theorem test_frameEnc :
    answers [] 0 [0x06, 0x02, 0x01, 0, 0, 0, 0, 0, 0, 0, 0x01, 0xC0, 0xA1, 0x04, 0, 0, 0, 0, 0, 0, 0] =
      some ([[0x00, 0x18, 0, 0, 0] ++ frameF1], [], 0) := by decide +kernel

/-- Section 2.5, F4: a body of 65536 bytes. -/
theorem test_frameEnc_bodyTooLarge (s : State) :
    exec (.frameEnc 1 0 0 0 0 0 (List.replicate 65536 0)) s = .next (s.respond [0x07]) := by
  have h : (List.replicate 65536 (0 : Byte)).length > Config.maxBody := by rw [List.length_replicate]; decide
  show execFrameEnc 1 0 0 0 0 0 _ s = _
  unfold execFrameEnc encodeFrame; rw [if_pos h]; rfl

/-- Section 2.6: the result of every step of the pipeline. -/
theorem test_frameDec :
    (([[], [0x01, 0x02], [0x05, 0x11, 0x00], frameF1 ++ frameF1, [0x00], [0x02, 0x11, 0x00], [0x03, 0x11, 0x22, 0x00],
       [0x03, 0xFF, 0xFF, 0x00], [0x01, 0x03, 0xF0, 0xE1, 0x00], frameF1] : List Bytes).map fun w =>
      resultRecord (decodeFrame w)) =
    [[0x06], [0x06], [0x01], [0x01], [0x03], [0x03], [0x04, 0x11, 0x22, 0xFF, 0xFF], [0x05, 0x00], [0x05, 0x01], recordF1] := by
  decide +kernel

/-- Section 2.6: a magic mismatch on an OK frame, and one flipped bit. -/
theorem test_frameDec_info_and_corruption :
    answers [] 0 ([0x07, 0x14, 0, 0, 0, 0x06, 0x34, 0x12, 0x01, 0x03, 0x05, 0x01, 0x01, 0x02, 0x04, 0x01, 0x01, 0x07, 0xFE, 0xA0,
      0xFF, 0x77, 0x99, 0xB4, 0x00]) = some ([[0x00, 0x02, 0x34, 0x12, 0x01, 0x03, 0x05, 0, 0, 0, 0x04, 0, 0, 0, 0xFE, 0xA0, 0xFF,
      0x77, 0, 0, 0, 0]], [], 0) ∧
    decodeFrame (frameF1.set 4 0x03) = .error (.crcMismatch 0x36AA 0x2648) := by decide +kernel

/-- Section 2.7: the limit of 4, and a delimiter at the limit. -/
theorem test_feed :
    answers [] 4 [0x08, 0x07, 0, 0, 0, 0x01, 0x02, 0x03, 0x04, 0x05, 0x06, 0x00] = some ([[0x00, 0x02, 0, 0, 0, 0x08, 0x01]], [], 4) ∧
    answers [] 4 [0x08, 0x04, 0, 0, 0, 0x03, 0x11, 0x22, 0x33] = some ([[0x00, 0, 0, 0, 0]], [0x03, 0x11, 0x22, 0x33], 4) ∧
    answers [0x03, 0x11, 0x22, 0x33] 4 [0x08, 0x01, 0, 0, 0, 0x00] = some ([[0x00, 0x01, 0, 0, 0, 0x01]], [], 4) := by decide +kernel

/-- Section 2.7: F1 under a limit that it fits and one that it does not; section 3, P2: the second half of F1. -/
theorem test_feed_frames :
    answers [] 23 ([0x08, 0x18, 0, 0, 0] ++ frameF1) = some ([[0x00, 0x01, 0, 0, 0] ++ recordF1], [], 23) ∧
    answers [] 22 ([0x08, 0x18, 0, 0, 0] ++ frameF1) = some ([[0x00, 0x02, 0, 0, 0, 0x08, 0x03]], [], 22) ∧
    answers (frameF1.take 10) 0 ([0x08, 0x0E, 0, 0, 0] ++ frameF1.drop 10) = some ([[0x00, 0x01, 0, 0, 0] ++ recordF1], [], 0) := by
  decide +kernel

/-- Section 2.7. -/
theorem test_rdrClear : answers [0x01, 0x02] 9 [0x09] = some ([[0x00]], [], 9) := by decide

/-- Section 2.7. -/
theorem test_maxaccWr : answers [0x01, 0x02] 0 [0x0A, 0x78, 0x56, 0x34, 0x12] = some ([[0x00]], [0x01, 0x02], 0x12345678) := by decide

/-- Section 2.7. -/
theorem test_maxaccRd : answers [0x01] 0x12345678 [0x0B] = some ([[0x00, 0x78, 0x56, 0x34, 0x12]], [0x01], 0x12345678) := by decide

/-- Section 2.7. -/
theorem test_statusRd : answers (List.replicate 10 0x01) 0 [0x0C] = some ([[0x00, 0x0A, 0, 0, 0]], List.replicate 10 0x01, 0) := by
  decide

/-- Section 3, P5: illegal records change nothing. -/
theorem test_illegal_records :
    answers [0x01, 0x02] 0 [0x08, 0x05, 0, 0, 0, 0x01] = some ([[0x09]], [0x01, 0x02], 0) ∧
    answers [0x01, 0x02] 0 [0x0D] = some ([[0x09]], [0x01, 0x02], 0) ∧ answers [0x01, 0x02] 0 [] = some ([[0x09]], [0x01, 0x02], 0) ∧
    answers [0x01, 0x02] 0 [0x09, 0x00] = some ([[0x09]], [0x01, 0x02], 0) := by decide

/-- R28 with a finite capacity: the lower of the two limits. -/
theorem test_effectiveLimit :
    effectiveLimit 0 none = none ∧ effectiveLimit 0 (some 3) = some 3 ∧ effectiveLimit 5 (some 3) = some 3 ∧
    effectiveLimit 2 (some 3) = some 2 ∧ effectiveLimit 5 none = some 5 := by decide

/-- R62, R64, S8. -/
theorem test_names : typeName 9 = "unknown(9)" ∧ typeName 2 = "COMMAND" ∧ endpointName 0xA0 ≠ endpointName 0xC0 := by decide +kernel

/-- R88: a repeated byte, and lines refused: a number out of range, 15 header bytes, an unknown mnemonic. -/
theorem test_assembleText :
    assembleText "COBS_DEC [FF 01 x3 02]" = some [.cobsDec [0xFF, 0x01, 0x01, 0x01, 0x02]] ∧
    assembleText "MAXACC_WR 4294967296" = none ∧ assembleText "HDR_UNPACK [00 x15]" = none ∧ assembleText "NOP" = none ∧
    assembleText "; only a comment\n\nSTATUS_RD" = some [.statusRd] := by decide +kernel

/-! Witnesses: the hypotheses of each statement, met together. -/

theorem witness_DecodeOfEncode : (Instr.feed [0x01]).WellFormed ∧ (Instr.hdrUnpack (List.replicate 16 0)).WellFormed := by decide

theorem witness_EncodeOfDecode : decode [0x0B] = .command .maxaccRd := by decide

theorem witness_StepRuns :
    (blockWith [] 0 (.record [0x0B])).inputs = .record [0x0B] :: [] ∧ decode [0x0B] = .command .maxaccRd := by decide

theorem witness_IllegalRecord :
    (blockWith [] 0 (.record [0x09, 0x00])).inputs = .record [0x09, 0x00] :: [] ∧ recordIsLegal [0x09, 0x00] = false := by decide

theorem witness_ResetInput : (blockWith [1] 2 .reset).inputs = .reset :: [] := rfl

theorem witness_EveryStepGoesOn :
    (blockWith [] 0 (.record [])).inputs.head? = some (.record []) ∧ State.reset.inputs = [] ∧
    (∀ bytes, State.reset.inputs.head? ≠ some (.record bytes)) := ⟨rfl, rfl, fun _ => by simp⟩

theorem witness_CommandFrames :
    exec .statusRd State.reset = .next (State.reset.respond [0x00, 0, 0, 0, 0]) ∧ Instr.statusRd.op ≠ .maxaccWr ∧
    Instr.statusRd.op ≠ .feed ∧ Instr.statusRd.op ≠ .rdrClear := ⟨rfl, by decide⟩

theorem witness_WhatChanges :
    step (blockWith [1] 2 .reset) = .next ⟨[], 0, none, [], []⟩ ∧ ([] : Bytes) ≠ (blockWith [1] 2 .reset).acc ∧
    (0 : BitVec 32) ≠ (blockWith [1] 2 .reset).maxAccum := ⟨rfl, by decide⟩

theorem witness_ReadOnly : Instr.maxaccRd.op ≠ .feed ∧ Instr.maxaccRd.op ≠ .rdrClear ∧ Instr.maxaccRd.op ≠ .maxaccWr := by decide

theorem witness_Pure : (Instr.crc16 [0x01]).isPure = true ∧
    exec .rdrClear State.reset = .next (State.reset.respond [0x00]) := ⟨rfl, rfl⟩

theorem witness_CommandsDepend :
    (blockWith [1] 2 .reset).acc = (blockWith [1] 2 (.record [])).acc ∧
    (blockWith [1] 2 .reset).maxAccum = (blockWith [1] 2 (.record [])).maxAccum ∧
    (blockWith [1] 2 .reset).accCapacity = (blockWith [1] 2 (.record [])).accCapacity := by decide

/-- A full buffer of a finite block: the invariant holds at its boundary, and the step is one. -/
theorem witness_StepKeeps :
    State.inv { blockWith [1, 2] 2 (.record [0x09]) with accCapacity := some 2 } = true ∧
    State.withinLimit { blockWith [1, 2] 2 (.record [0x09]) with accCapacity := some 2 } = true ∧
    decode [0x09] = .command .rdrClear ∧
    step { blockWith [1, 2] 2 (.record [0x09]) with accCapacity := some 2 } = .next ⟨[], 2, some 2, [], [[0x00]]⟩ :=
  ⟨by decide, by decide, by decide, rfl⟩

theorem witness_CobsEncBound : ([] : Bytes).length + 2 + ([] : Bytes).length / 254 < 2 ^ 32 := by decide

theorem witness_CobsFullGroups :
    (List.replicate 254 (0x01 : Byte)).length = 254 ∧ (∀ x ∈ List.replicate 254 (0x01 : Byte), x ≠ 0x00) ∧ (0xFF : Byte) ≠ 0x00 :=
  ⟨List.length_replicate, fun x hx => by rw [List.eq_of_mem_replicate hx]; decide, by decide⟩

/-- Each of the three answers of COBS_DEC. -/
theorem witness_CobsDecAnswers :
    cobsDecode [0x02, 0x11] = .ok [0x11] ∧ cobsDecode [0x02] = .error .truncated ∧ cobsDecode [0x00] = .error .cobsInvalid ∧
    ([0x02, 0x11] : Bytes).length < 2 ^ 32 := by decide

/-- Each of the three forms of an input that decodes. -/
theorem witness_NonCanonical :
    cobsDecode [] = .ok [] ∧ cobsDecode [0x02, 0x11] = .ok [0x11] ∧
    cobsDecode (0xFF :: (List.replicate 254 0x01 ++ [0x01])) = .ok (List.replicate 254 0x01) := by decide +kernel

theorem witness_ZeroFree : (∀ b ∈ ([0x05, 0x11] : Bytes), b ≠ 0x00) ∧ cobsDecode [0x05, 0x11] = .error .truncated := by decide

theorem witness_HdrUnpack : (List.replicate 16 (0x00 : Byte)).length = 16 ∧
    (⟨0xA15A, 1, 9, 0, 0, 0, 0, 0, 0⟩ : Header).type = 9 ∧ (⟨0x1234, 7, 2, 0, 0, 0, 0, 0, 0⟩ : Header).version = 7 := by decide

theorem witness_FrameEnc : (List.replicate 65535 (0x00 : Byte)).length ≤ 65535 ∧ 65535 < (List.replicate 65536 (0x00 : Byte)).length := by
  simp only [List.length_replicate]; decide

theorem witness_WireFrame : encodeFrame 2 1 0 1 0xC0 0xA1 [0, 0, 0, 0] = .ok frameF1 := by decide +kernel

/-- Each clause of FRAME_DEC's pipeline. -/
theorem witness_FrameDec :
    ([0x01] : Bytes).getLast? ≠ some 0x00 ∧ cobsDecode [0x05] = .error .truncated ∧ cobsDecode [] = .ok [] ∧
    cobsDecode [0x03, 0x11, 0x22] = .ok ([] ++ le16 0x2211) ∧ (0x2211 : BitVec 16) ≠ crc16 [] ∧
    cobsDecode [0x03, 0xFF, 0xFF] = .ok ([] ++ le16 0xFFFF) ∧ (0xFFFF : BitVec 16) = crc16 [] ∧
    cobsDecode (cobsEncode (withCrc (List.replicate 16 0x01))).dropLast = .ok (List.replicate 16 0x01 ++
      le16 (crc16 (List.replicate 16 0x01))) := by decide +kernel

theorem witness_PipelineErrors :
    decodeFrame [0x03, 0xFF, 0xFF, 0x00] = .error (.shortPayload 0) ∧
    decodeFrame [0x03, 0x11, 0x22, 0x00] = .error (.crcMismatch 0x2211 0xFFFF) := by decide +kernel

theorem witness_FlippedBit : 2 < (withCrc [0x01]).length ∧ 7 < 8 := by decide +kernel

/-- A frame with a one-byte body, and an error, each followed by the same byte on both sides. -/
theorem witness_ResultRecords :
    resultRecord (.ok ⟨⟨0, 0, 0, 0, 0, 0, 0, 0, 0⟩, [0x01], 0⟩) ++ [0x02] =
      resultRecord (.ok ⟨⟨0, 0, 0, 0, 0, 0, 0, 0, 0⟩, [0x01], 0⟩) ++ [0x02] ∧ ([0x01] : Bytes).length < 2 ^ 32 ∧
    resultRecord (.error .tooShort) ++ [0x02] = resultRecord (.error .tooShort) ++ [0x02] := by decide

/-- FEED's clauses where they meet: at the register's limit, one below it, at the capacity, one below it. -/
theorem witness_FeedOneByte :
    (State.acc (blockWith [1, 2] 2 .reset)).length = 2 ∧ (2 : BitVec 32) ≠ 0 ∧ (2 : BitVec 32).toNat ≤ 2 ∧ 2 < (3 : BitVec 32).toNat ∧
    (∃ c, ({ blockWith [1, 2] 0 .reset with accCapacity := some 2 } : State).accCapacity = some c ∧ c ≤ 2) ∧
    (∀ c, ({ blockWith [1, 2] 3 .reset with accCapacity := some 3 } : State).accCapacity = some c → 2 < c) := by
  simp [blockWith]

/-- A delimiter inside the operand, after bytes that the decoder finds Truncated. -/
theorem witness_FeedCandidates :
    (∀ b ∈ ([0x03] : Bytes), b ≠ 0x00) ∧ ([0x05, 0x00, 0x07] : Bytes) = [0x05] ++ [0x00] ++ [0x07] ∧
    cobsDecode (feedBytes none [0x03] [0x05]).1 = .error .truncated ∧
    (feedBytes none [0x03] [0x05, 0x00, 0x07]).2 = [.error .cobsInvalid] := by decide +kernel

/-- Section 2.7, MAX 4: one byte discarded, one delimiter, two results; each kind of byte stands at a place of the operand. -/
theorem witness_FeedResultCount :
    discardedBytes (some 4) [] [0x01, 0x02, 0x03, 0x04, 0x05, 0x06, 0x00] = 1 ∧
    (feedBytes (some 4) [] [0x01, 0x02, 0x03, 0x04, 0x05, 0x06, 0x00]).2 = [.error .resourceExceeded, .error .cobsInvalid] ∧
    ([0x01, 0x02, 0x03, 0x04, 0x05, 0x06, 0x00] : Bytes) = [0x01, 0x02, 0x03, 0x04] ++ 0x05 :: [0x06, 0x00] ∧
    limitReached (some 4) (feedBytes (some 4) [] [0x01, 0x02, 0x03, 0x04]).1 = true ∧
    limitReached (some 4) (feedBytes (some 4) [] [0x01, 0x02, 0x03]).1 = false := by decide +kernel

theorem witness_FeedOfAPrefix :
    encodeFrame 2 1 0 1 0xC0 0xA1 [0, 0, 0, 0] = .ok (frameF1.take 23 ++ [0x00]) ∧ ([0x00] : Bytes) ≠ [] ∧ State.reset.acc = [] ∧
    State.reset.maxAccum = 0 ∧ State.reset.accCapacity = none := by decide +kernel

/-- Two copies of F1 at the boundary of a limit of 23. -/
theorem witness_FeedOfTwoFrames :
    encodeFrame 2 1 0 1 0xC0 0xA1 [0, 0, 0, 0] = .ok frameF1 ∧ (blockWith [] 23 .reset).limit = some 23 ∧ frameF1.length ≤ 23 + 1 := by
  decide +kernel

theorem witness_MaxaccWr : (1 : BitVec 32) ≠ 0 ∧ (1 : BitVec 32).toNat < (blockWith [1, 2] 0 .reset).acc.length ∧ (5 : Byte) ≠ 0 := by
  decide

/-- Each way to an ACC that STATUS_RD reads as 0. -/
theorem witness_StatusRd :
    exec .rdrClear State.reset = .next (State.reset.respond [0x00]) ∧
    exec (.feed ([0x01] ++ [0x00])) State.reset = .next (State.reset.respond (feedResponse [.error .tooShort])) ∧
    limitReached (blockWith [] 1 .reset).limit (feedBytes (blockWith [] 1 .reset).limit [] [0x01]).1 = true ∧
    exec (.feed ([0x01] ++ [0x02])) (blockWith [] 1 .reset) =
      .next ((blockWith [] 1 .reset).respond (feedResponse [.error .resourceExceeded])) := ⟨rfl, rfl, rfl, rfl⟩

theorem witness_Pseudo : (List.replicate 65535 (0x00 : Byte)).length ≤ 65535 ∧ 65535 < (List.replicate 65536 (0x00 : Byte)).length := by
  simp only [List.length_replicate]; decide

theorem witness_InfoBits : 3 ≤ 3 ∧ (3 : Byte) ∈ knownTypes ∧ (4 : Byte) ∉ knownTypes := by decide

end Sys2Proof.Tests
end

section
/-! SUPPORT. What a command and a step can answer, said once: one inversion lemma for `exec`, one equation for each branch of `step`. -/

namespace Sys2Proof.Machine

/-- R24, R46, R86: what any command can do. It answers a next state with one response more; MAX_ACCUM is new only under MAXACC_WR, and
ACC only under FEED and RDR_CLEAR. -/
theorem exec_answers (i : Instr) (s : State) : ∃ acc maxAccum r,
    exec i s = .next (((s.setAcc acc).setMaxAccum maxAccum).respond r) ∧
    (i.op ≠ .maxaccWr → maxAccum = s.maxAccum) ∧ (i.op ≠ .feed → i.op ≠ .rdrClear → acc = s.acc) := by
  cases i with
  | feed data => exact ⟨_, s.maxAccum, _, rfl, fun _ => rfl, fun hne => absurd rfl hne⟩
  | rdrClear => exact ⟨[], s.maxAccum, _, rfl, fun _ => rfl, fun _ hne => absurd rfl hne⟩
  | maxaccWr value => exact ⟨s.acc, value, _, rfl, fun hne => absurd rfl hne, fun _ _ => rfl⟩
  | crc16 | cobsEnc | cobsDec | hdrPack | hdrUnpack | frameEnc | frameDec | maxaccRd | statusRd =>
    exact ⟨s.acc, s.maxAccum, _, rfl, fun _ => rfl, fun _ _ => rfl⟩

variable {s : State} {bytes : Bytes} {rest : List HostInput}

theorem step_of_no_input (h : s.inputs = []) : step s = .next s := by
  simp [step, h, idle]

theorem step_of_reset (h : s.inputs = .reset :: rest) :
    step s = .next (((s.setInputs rest).setAcc []).setMaxAccum 0) := by
  simp [step, h, blockReset]

theorem step_of_command {i : Instr} (h : s.inputs = .record bytes :: rest) (hdec : decode bytes = .command i) :
    step s = exec i (s.setInputs rest) := by
  simp [step, h, hdec]

theorem step_of_illegal {why : Illegal} (h : s.inputs = .record bytes :: rest) (hdec : decode bytes = .illegal why) :
    step s = .next ((s.setInputs rest).respond (errorRecord .illegalCommand)) := by
  simp [step, h, hdec, illegalCommand]

/-- R6, R86: a record, legal or not, is taken off the inputs and answered with one response. -/
theorem step_of_record (h : s.inputs = .record bytes :: rest) : ∃ acc maxAccum r,
    step s = .next ((((s.setInputs rest).setAcc acc).setMaxAccum maxAccum).respond r) := by
  cases hdec : decode bytes with
  | command i =>
    obtain ⟨acc, maxAccum, r, hexec, -, -⟩ := exec_answers i (s.setInputs rest)
    exact ⟨acc, maxAccum, r, (step_of_command h hdec).trans hexec⟩
  | illegal why => exact ⟨s.acc, s.maxAccum, _, step_of_illegal h hdec⟩

end Sys2Proof.Machine
end

section
/-! The statements on steps of the whole machine. -/

namespace Sys2Proof.Machine

/-- Settles O9, by the three things the oldest input can be: none, a reset, a record. -/
theorem everyStepGoesOn : Obligations.EveryStepGoesOn := by
  intro s
  cases h : s.inputs with
  | nil => exact ⟨s, step_of_no_input h, by simp [h], [], by simp, by simp, fun _ => rfl, fun _ => rfl⟩
  | cons input rest =>
    cases input with
    | reset => exact ⟨_, step_of_reset h, rfl, [], by simp, by simp, fun _ => rfl, by simp⟩
    | record bytes =>
      obtain ⟨acc, maxAccum, r, hstep⟩ := step_of_record h
      exact ⟨_, hstep, rfl, [r], rfl, fun _ _ => rfl, fun hnone => absurd rfl (hnone bytes), by simp⟩

/-- Settles O5: the branch of `step` for a record that decodes. -/
theorem stepRunsTheDecodedCommand : Obligations.StepRunsTheDecodedCommand :=
  fun _ _ _ _ hin hdec => step_of_command hin hdec

end Sys2Proof.Machine
end

section
/-! SUPPORT. What a FEED, a command and a step can do to ACC, as one induction principle each; when the effective limit acts; and the
reader's invariant as propositions. -/

namespace Sys2Proof.Machine

/-- `acc` has at most the number of bytes `bound` gives, when it gives one: what R8 says of ACC_CAPACITY and R25 of the limit. -/
def BoundedBy (bound : Option Nat) (acc : Bytes) : Prop := ∀ n ∈ bound, acc.length ≤ n

theorem boundedBy_nil (bound : Option Nat) : BoundedBy bound [] := fun n _ => Nat.zero_le n

theorem fitsCapacity_iff {s : State} : s.fitsCapacity = true ↔ BoundedBy s.accCapacity s.acc := by
  cases h : s.accCapacity <;> simp [State.fitsCapacity, BoundedBy, h]

theorem withinLimit_iff {s : State} : s.withinLimit = true ↔ BoundedBy s.limit s.acc := by
  cases h : s.limit <;> simp [State.withinLimit, BoundedBy, h]

theorem zeroFree_iff {s : State} : s.zeroFree = true ↔ ∀ b ∈ s.acc, b ≠ 0x00 := by
  simp [State.zeroFree]

theorem inv_iff {s : State} :
    s.inv = true ↔ (∀ b ∈ s.acc, b ≠ 0x00) ∧ BoundedBy s.accCapacity s.acc := by
  rw [State.inv, Bool.and_eq_true, zeroFree_iff, fitsCapacity_iff]

theorem limitReached_some {l : Nat} {acc : Bytes} : limitReached (some l) acc = true ↔ l ≤ acc.length := by
  simp [limitReached]

/-- R28: the limit acts when ACC has reached MAX_ACCUM, unless that is 0, or the capacity, when that is a number. -/
theorem limitReached_limit_iff {s : State} {acc : Bytes} : limitReached s.limit acc = true ↔
    (s.maxAccum ≠ 0 ∧ s.maxAccum.toNat ≤ acc.length) ∨ ∃ c, s.accCapacity = some c ∧ c ≤ acc.length := by
  unfold State.limit
  by_cases hmax : s.maxAccum = 0#32
  · cases hcap : s.accCapacity <;> simp [hmax, limitReached_some]
  · cases hcap : s.accCapacity with
    | none => simp [hmax, effectiveLimit_register hmax, limitReached_some]
    | some c => simp [hmax, effectiveLimit_both hmax, limitReached_some]

/-- An append happens below the limit, so it respects every bound the limit is within. -/
theorem boundedBy_append {limit bound : Option Nat} {acc : Bytes} (b : Byte)
    (hbound : ∀ n ∈ bound, ∃ l, limit = some l ∧ l ≤ n) (hreached : limitReached limit acc = false) :
    BoundedBy bound (acc ++ [b]) := by
  intro n hn
  obtain ⟨l, rfl, hle⟩ := hbound n hn
  have hlt : ¬ l ≤ acc.length := by rw [← limitReached_some, hreached]; decide
  rw [List.length_append, List.length_singleton]
  omega

/-- R49, R174, R220: everything a step that answers `t` can have done. -/
theorem step_cases {s t : State} (h : step s = .next t) :
    (s.inputs = [] ∧ t = s) ∨
    (∃ rest, s.inputs = .reset :: rest ∧ t = ((s.setInputs rest).setAcc []).setMaxAccum 0) ∨
    (∃ bytes rest i, s.inputs = .record bytes :: rest ∧ decode bytes = .command i ∧
      exec i (s.setInputs rest) = .next t) ∨
    (∃ bytes rest why, s.inputs = .record bytes :: rest ∧ decode bytes = .illegal why ∧
      t = (s.setInputs rest).respond (errorRecord .illegalCommand)) := by
  cases hin : s.inputs with
  | nil => cases (step_of_no_input hin).symm.trans h; exact .inl ⟨rfl, rfl⟩
  | cons input rest =>
    cases input with
    | reset => cases (step_of_reset hin).symm.trans h; exact .inr (.inl ⟨rest, rfl, rfl⟩)
    | record bytes =>
      cases hdec : decode bytes with
      | command i =>
        exact .inr (.inr (.inl ⟨bytes, rest, i, rfl, hdec, (step_of_command hin hdec).symm.trans h⟩))
      | illegal why =>
        cases (step_of_illegal hin hdec).symm.trans h
        exact .inr (.inr (.inr ⟨bytes, rest, why, rfl, hdec, rfl⟩))

section
variable {P : Bytes → Prop} (hnil : P [])
include hnil

/-- R153 to R155: what holds of the empty ACC and survives an append below the limit holds of the ACC a FEED leaves. -/
theorem feedBytes_keeps {limit : Option Nat}
    (happend : ∀ acc b, b ≠ 0x00 → limitReached limit acc = false → P acc → P (acc ++ [b]))
    (data : Bytes) {acc : Bytes} (hacc : P acc) : P (feedBytes limit acc data).1 := by
  induction data generalizing acc with
  | nil => exact hacc
  | cons b bs ih =>
    rw [feedBytes_cons]
    apply ih
    obtain ⟨-, hfed⟩ | ⟨-, -, hfed⟩ | ⟨hb, hreached, hfed⟩ := feedByte_cases limit acc b <;> rw [hfed]
    · exact hnil
    · exact hnil
    · exact happend acc b hb hreached hacc

variable {s t : State} (happend : ∀ acc b, b ≠ 0x00 → limitReached s.limit acc = false → P acc → P (acc ++ [b]))
  (hacc : P s.acc)
include happend hacc

/-- The same for a command: only FEED and RDR_CLEAR touch ACC. -/
theorem exec_keeps_acc {i : Instr} (h : exec i s = .next t) : P t.acc := by
  by_cases hkept : i.op = .feed ∨ i.op = .rdrClear
  · cases i with
    | feed data => cases h; exact feedBytes_keeps hnil happend data hacc
    | rdrClear => cases h; exact hnil
    | _ => simp [Instr.op] at hkept
  · obtain ⟨acc, maxAccum, r, hexec, -, hframe⟩ := exec_answers i s
    cases hexec.symm.trans h
    have : acc = s.acc := hframe (fun hfeed => hkept (.inl hfeed)) (fun hclear => hkept (.inr hclear))
    simpa [this] using hacc

/-- The same for a whole step, so that an invariant of ACC is two small goals. -/
theorem step_keeps_acc (h : step s = .next t) : P t.acc := by
  obtain ⟨-, rfl⟩ | ⟨rest, -, rfl⟩ | ⟨bytes, rest, i, -, -, hexec⟩ | ⟨bytes, rest, why, -, -, rfl⟩ := step_cases h
  · exact hacc
  · exact hnil
  · exact exec_keeps_acc (s := s.setInputs rest) hnil happend hacc hexec
  · exact hacc

end

theorem step_keeps_zeroFree {s t : State} (hacc : ∀ b ∈ s.acc, b ≠ 0x00) (h : step s = .next t) :
    ∀ b ∈ t.acc, b ≠ 0x00 := by
  refine step_keeps_acc (P := fun acc => ∀ b ∈ acc, b ≠ 0x00) (by simp) ?_ hacc h
  intro acc b hb _ hzero
  simpa [or_imp, forall_and] using ⟨hzero, hb⟩

theorem step_keeps_boundedBy {s t : State} {bound : Option Nat} (hbound : ∀ n ∈ bound, ∃ l, s.limit = some l ∧ l ≤ n)
    (hacc : BoundedBy bound s.acc) (h : step s = .next t) : BoundedBy bound t.acc :=
  step_keeps_acc (boundedBy_nil bound) (fun _ b _ hreached _ => boundedBy_append b hbound hreached) hacc h

/-- R33: no step writes the capacity. -/
theorem step_accCapacity {s t : State} (h : step s = .next t) : t.accCapacity = s.accCapacity := by
  obtain ⟨-, rfl⟩ | ⟨rest, -, rfl⟩ | ⟨bytes, rest, i, -, -, hexec⟩ | ⟨bytes, rest, why, -, -, rfl⟩ := step_cases h
  · rfl
  · rfl
  · obtain ⟨acc, maxAccum, r, hanswer, -, -⟩ := exec_answers i (s.setInputs rest)
    cases hanswer.symm.trans hexec
    rfl
  · rfl

/-- R154: FEED of one byte is the byte step. -/
theorem exec_feed_singleton {s : State} {b : Byte} {acc : Bytes} {results : List FrameResult}
    (h : feedByte s.limit s.acc b = (acc, results)) :
    exec (.feed [b]) s = .next ((s.setAcc acc).respond (feedResponse results)) := by
  simp [exec, execFeed, feedBytes_cons, h]

theorem feedResponse_nil : feedResponse [] = [0x00, 0x00, 0x00, 0x00, 0x00] := rfl

theorem feedResponse_singleton (result : FrameResult) :
    feedResponse [result] = [0x00, 0x01, 0x00, 0x00, 0x00] ++ resultRecord result := by
  simp [feedResponse, okResponse, statusOk, le32]

end Sys2Proof.Machine
end

section
/-! The statements on the frame and the invariants of the block's state. -/

namespace Sys2Proof.Machine

/-- Settles O15: an append adds a byte other than 0x00, below a limit that is within the capacity. -/
theorem everyStepKeepsTheReaderInvariant : Obligations.EveryStepKeepsTheReaderInvariant := by
  intro s t hinv hstep
  obtain ⟨hzero, hfits⟩ := inv_iff.mp hinv
  have hcapacity : ∀ c ∈ s.accCapacity, ∃ l, s.limit = some l ∧ l ≤ c := by
    intro c hc
    rw [State.limit, Option.mem_def.mp hc]
    exact effectiveLimit_le_capacity
  rw [inv_iff, step_accCapacity hstep]
  exact ⟨step_keeps_zeroFree hzero hstep, step_keeps_boundedBy hcapacity hfits hstep⟩

/-- Settles O10, from what any command can answer. -/
theorem commandFrames : Obligations.CommandFrames := by
  intro i s t h
  obtain ⟨acc, maxAccum, r, hexec, hmax, hacc⟩ := exec_answers i s
  cases hexec.symm.trans h
  exact ⟨rfl, rfl, ⟨r, rfl⟩, hmax, hacc⟩

/-- Settles O11: an idle step and an illegal record change neither, and a command keeps to its frame. -/
theorem whatChangesTheState : Obligations.WhatChangesTheState := by
  intro s t h
  obtain ⟨-, rfl⟩ | ⟨rest, hin, -⟩ | ⟨bytes, rest, i, hin, hdec, hexec⟩ | ⟨bytes, rest, why, -, -, rfl⟩ := step_cases h
  · exact ⟨absurd rfl, absurd rfl⟩
  · have hreset : s.inputs.head? = some .reset := by rw [hin, List.head?_cons]
    exact ⟨fun _ => .inl hreset, fun _ => .inl hreset⟩
  · have hrecord : s.inputs.head? = some (.record bytes) := by rw [hin, List.head?_cons]
    obtain ⟨-, -, -, hmax, hacc⟩ := commandFrames i _ t hexec
    refine ⟨fun hne => .inr ⟨bytes, i, hrecord, hdec, ?_⟩, fun hne => .inr ⟨bytes, i, hrecord, hdec, ?_⟩⟩
    · by_contra hop
      obtain ⟨hfeed, hclear⟩ := not_or.mp hop
      exact hne (hacc hfeed hclear)
    · by_contra hop
      exact hne (hmax hop)
  · exact ⟨absurd rfl, absurd rfl⟩

/-- Settles O14: with the three fields shared, each command's meaning reads the same values in both states. -/
theorem commandsDependOnTheReaderStateAlone : Obligations.CommandsDependOnTheReaderStateAlone := by
  rintro i ⟨acc, maxAccum, cap, inputs, responses⟩ ⟨_, _, _, inputs', responses'⟩ rfl rfl rfl
  cases i with
  | feed data =>
    exact ⟨(feedBytes (effectiveLimit maxAccum cap) acc data).1, maxAccum, _, rfl, rfl⟩
  | rdrClear => exact ⟨[], maxAccum, okResponse [], rfl, rfl⟩
  | maxaccWr value => exact ⟨acc, value, okResponse [], rfl, rfl⟩
  | crc16 | cobsEnc | cobsDec | hdrPack | hdrUnpack | frameEnc | frameDec | maxaccRd | statusRd =>
    exact ⟨acc, maxAccum, _, rfl, rfl⟩

/-- Settles O17: where MAX_ACCUM stays the limit does, and an append is below it; it changes otherwise by a reset alone, which
empties ACC. -/
theorem onlyMaxaccWrCanExceedTheLimit : Obligations.OnlyMaxaccWrCanExceedTheLimit := by
  intro s t hwithin hstep hnoWrite
  rw [withinLimit_iff] at hwithin ⊢
  by_cases hmax : t.maxAccum = s.maxAccum
  · have hlimit : t.limit = s.limit := by rw [State.limit, State.limit, hmax, step_accCapacity hstep]
    rw [hlimit]
    exact step_keeps_boundedBy (fun l hl => ⟨l, hl, le_rfl⟩) hwithin hstep
  · obtain ⟨-, hwrites⟩ := whatChangesTheState s t hstep
    obtain hreset | ⟨bytes, i, hrecord, hdec, hop⟩ := hwrites hmax
    · obtain ⟨rest, hin⟩ := List.head?_eq_some_iff.mp hreset
      cases (step_of_reset hin).symm.trans hstep
      exact boundedBy_nil _
    · cases i with
      | maxaccWr value => exact absurd hdec (hnoWrite bytes value hrecord)
      | _ => cases hop

/-- Settles O43: the three branches of the byte step, with the limit's condition written out. -/
theorem feedOneByte : Obligations.FeedOneByte := by
  intro b s
  refine ⟨fun hb => ?_, fun hb hfull => ?_, fun hb hmax hcap => ?_⟩
  · subst hb
    rw [exec_feed_singleton (feedByte_delimiter s.limit s.acc), feedResponse_singleton]; rfl
  · have hreached : limitReached s.limit s.acc = true := limitReached_limit_iff.mpr hfull
    rw [exec_feed_singleton (feedByte_exceeds hb hreached), feedResponse_singleton]; rfl
  · have hreached : limitReached s.limit s.acc = false := by
      rw [← Bool.not_eq_true, limitReached_limit_iff]
      rintro (⟨hne, hle⟩ | ⟨c, hc, hle⟩)
      · have := hmax.resolve_left hne; omega
      · have := hcap c hc; omega
    rw [exec_feed_singleton (feedByte_appends hb hreached), feedResponse_nil]; rfl

/-- Settles O7: the reset values, and the branch of `step` for a reset. -/
theorem resetLeavesTheResetValues : Obligations.ResetLeavesTheResetValues :=
  ⟨State.reset_acc, State.reset_maxAccum, fun _ _ hin => step_of_reset hin⟩

/-- Settles O16: ACC is empty. -/
theorem resetMeetsTheReaderInvariant : Obligations.ResetMeetsTheReaderInvariant :=
  ⟨inv_iff.mpr ⟨by simp, boundedBy_nil _⟩, withinLimit_iff.mpr (boundedBy_nil _)⟩

end Sys2Proof.Machine
end

section
/-! The Info flags (42_header.md R132), bit by bit. -/

namespace Sys2Proof.Machine

/-- A byte that is 0 or has its bit `i` alone set. -/
theorem getLsbD_ite_twoPow (p : Prop) [Decidable p] {i : Nat} (k : Nat) (hi : i < 8) :
    (if p then 0x00 else BitVec.twoPow 8 i : Byte).getLsbD k = (decide (¬ p) && decide (i = k)) := by
  by_cases hp : p <;> simp [hp, hi, BitVec.getLsbD_twoPow]

theorem unknownTypeFlag_getLsbD (h : Header) (k : Nat) :
    (unknownTypeFlag h).getLsbD k = (decide (h.type ∉ knownTypes) && decide (0 = k)) :=
  getLsbD_ite_twoPow (i := 0) (h.type ∈ knownTypes) k (by decide)

theorem magicMismatchFlag_getLsbD (h : Header) (k : Nat) :
    (magicMismatchFlag h).getLsbD k = (decide (h.magic ≠ Config.magic) && decide (1 = k)) :=
  getLsbD_ite_twoPow (i := 1) (h.magic = Config.magic) k (by decide)

theorem versionMismatchFlag_getLsbD (h : Header) (k : Nat) :
    (versionMismatchFlag h).getLsbD k = (decide (h.version ≠ Config.mdpVersion) && decide (2 = k)) :=
  getLsbD_ite_twoPow (i := 2) (h.version = Config.mdpVersion) k (by decide)

theorem infoOf_getLsbD (h : Header) (k : Nat) : (infoOf h).getLsbD k =
    (decide (h.type ∉ knownTypes) && decide (0 = k) || decide (h.magic ≠ Config.magic) && decide (1 = k) ||
      decide (h.version ≠ Config.mdpVersion) && decide (2 = k)) := by
  simp only [infoOf, BitVec.getLsbD_or, unknownTypeFlag_getLsbD, magicMismatchFlag_getLsbD, versionMismatchFlag_getLsbD]

/-- Settles O33: the three flags stand at bits 0, 1 and 2, so one disjunct is left at each of them and none above. -/
theorem infoBitsMeanWhatTheySay : Obligations.InfoBitsMeanWhatTheySay := by
  intro h
  refine ⟨?_, ?_, ?_, fun k hk => ?_⟩
  · rw [infoOf_getLsbD]; simp [knownTypes]
  · change _ ↔ h.magic ≠ Config.magic
    rw [infoOf_getLsbD]; simp
  · change _ ↔ h.version ≠ Config.mdpVersion
    rw [infoOf_getLsbD]; simp
  · obtain ⟨h0, h1, h2⟩ : 0 ≠ k ∧ 1 ≠ k ∧ 2 ≠ k := by omega
    simp [infoOf_getLsbD, h0, h1, h2]

end Sys2Proof.Machine
end

section
/-! The statements on the side effects and the order of commands (20_memory.md), with what they need of the model: a command does not
read the responses already returned, a pure command's response is a value of its operand, and FEED is a fold. -/

namespace Sys2Proof.Machine

/-- R49, log 2: a command acts and answers the same after one response more. -/
theorem exec_respond {i : Instr} {s : State} {acc : Bytes} {maxAccum : BitVec 32} {r : Bytes}
    (h : exec i s = .next (((s.setAcc acc).setMaxAccum maxAccum).respond r)) (q : Bytes) :
    exec i (s.respond q) = .next ((((s.respond q).setAcc acc).setMaxAccum maxAccum).respond r) := by
  obtain ⟨acc', maxAccum', r', hs, hrespond⟩ := commandsDependOnTheReaderStateAlone i s (s.respond q) rfl rfl rfl
  have hsame : ((s.setAcc acc).setMaxAccum maxAccum).respond r = ((s.setAcc acc').setMaxAccum maxAccum').respond r' := by
    injection h.symm.trans hs
  obtain rfl : acc = acc' := congrArg State.acc hsame
  obtain rfl : maxAccum = maxAccum' := congrArg State.maxAccum hsame
  obtain rfl : r = r' := by simpa using congrArg State.responses hsame
  exact hrespond

/-- R46: a command that is not FEED, RDR_CLEAR or MAXACC_WR only responds. -/
theorem exec_of_readOnly {i : Instr} (hfeed : i.op ≠ .feed) (hclear : i.op ≠ .rdrClear) (hwrite : i.op ≠ .maxaccWr)
    (s : State) : ∃ r, exec i s = .next (s.respond r) := by
  obtain ⟨acc, maxAccum, r, hexec, hmax, hacc⟩ := exec_answers i s
  obtain rfl := hmax hwrite
  obtain rfl := hacc hfeed hclear
  exact ⟨r, hexec⟩

/-- R46: a byte other than 0x00, fed twice under a limit of 1, is appended and then discarded. -/
theorem exists_feed_answers_differ : ∃ (data : Bytes) (s t u : State) (r q : Bytes),
    exec (.feed data) s = .next t ∧ exec (.feed data) t = .next u ∧
    t.responses = s.responses ++ [r] ∧ u.responses = t.responses ++ [q] ∧ r ≠ q :=
  ⟨[0x01], State.reset.setMaxAccum 1, _, _, feedResponse [], feedResponse [.error .resourceExceeded],
    exec_feed_singleton (feedByte_appends (by decide) (by decide)),
    exec_feed_singleton (feedByte_exceeds (by decide) (by decide)), rfl, rfl, by decide⟩

/-- Settles O12: such a command only responds, and a response more does not change what it answers. -/
theorem readOnlyCommandsAreIdempotent : Obligations.ReadOnlyCommandsAreIdempotent := by
  refine ⟨fun i s hfeed hclear hwrite => ?_, exists_feed_answers_differ⟩
  obtain ⟨r, hfirst⟩ := exec_of_readOnly hfeed hclear hwrite s
  have hsecond : exec i (s.respond r) = .next ((s.respond r).respond r) :=
    exec_respond (acc := s.acc) (maxAccum := s.maxAccum) hfirst r
  refine ⟨r, hfirst, hsecond.trans ?_⟩
  simp [State.respond]

/-- R50: the one response of a pure command, whatever the state. -/
theorem exec_of_isPure {i : Instr} (h : i.isPure = true) : ∃ r, ∀ s : State, exec i s = .next (s.respond r) := by
  cases i with
  | crc16 | cobsEnc | cobsDec | hdrPack | hdrUnpack | frameEnc | frameDec => exact ⟨_, fun _ => rfl⟩
  | feed | rdrClear | maxaccWr | maxaccRd | statusRd => cases h

/-- Settles O13: the pure command's response is fixed, and the other command does not read it. -/
theorem pureResponsesDependOnTheOperand : Obligations.PureResponsesDependOnTheOperand := by
  intro i hpure
  obtain ⟨r, hr⟩ := exec_of_isPure hpure
  refine ⟨r, hr, fun j s t hexec => ?_⟩
  obtain ⟨acc, maxAccum, q, hanswer, -, -⟩ := exec_answers j s
  cases hanswer.symm.trans hexec
  refine ⟨q, rfl, (exec_respond hanswer r).trans ?_⟩
  simp [State.respond, State.setAcc, State.setMaxAccum]

/-- R154: FEED's recursion is the left fold of the byte step, the results of each byte after those of the bytes before it. -/
theorem foldl_feedByte (limit : Option Nat) (data acc : Bytes) (results : List FrameResult) :
    data.foldl (fun p b => ((feedByte limit p.1 b).1, p.2 ++ (feedByte limit p.1 b).2)) (acc, results) =
      ((feedBytes limit acc data).1, results ++ (feedBytes limit acc data).2) := by
  induction data generalizing acc results with
  | nil => simp
  | cons b bs ih => rw [List.foldl_cons, ih, feedBytes_cons, List.append_assoc]

/-- R153: a byte emits zero or one result. -/
theorem feedByte_results_length_le (limit : Option Nat) (acc : Bytes) (b : Byte) : (feedByte limit acc b).2.length ≤ 1 := by
  obtain ⟨-, hfed⟩ | ⟨-, -, hfed⟩ | ⟨-, -, hfed⟩ := feedByte_cases limit acc b <;> simp [hfed]

theorem feedBytes_results_length_le (limit : Option Nat) (acc data : Bytes) :
    (feedBytes limit acc data).2.length ≤ data.length := by
  induction data generalizing acc with
  | nil => simp
  | cons b bs ih =>
    have hfirst := feedByte_results_length_le limit acc b
    have hrest := ih (feedByte limit acc b).1
    rw [feedBytes_cons, List.length_append, List.length_cons]
    omega

/-- Settles O42: the ACC and the results of `feedBytes` are those of the fold, at most one result for each byte. -/
theorem feedAnswers : Obligations.FeedAnswers := by
  intro data s
  refine ⟨(feedBytes s.limit s.acc data).1, (feedBytes s.limit s.acc data).2, ?_, feedBytes_results_length_le _ _ _, ?_⟩
  · rw [foldl_feedByte, List.nil_append]
  · rw [← List.flatMap_def]; rfl

end Sys2Proof.Machine
end

section
/-! SUPPORT. Operands at their offsets, both ways: a field read where it was written is that field, and the fields read in order glue
back to the bytes they were read from (30_encoding.md R80, R81; 42_header.md R134). -/

namespace Sys2Proof.Machine

/-! What was written at an offset reads back. -/

theorem rd16_eq_rd16_drop (xs : Bytes) (o : Nat) : rd16 xs o = rd16 (xs.drop o) 0 := by
  simp [rd16, byteAt]

theorem rd32_eq_rd32_drop (xs : Bytes) (o : Nat) : rd32 xs o = rd32 (xs.drop o) 0 := by
  simp [rd32, byteAt]

theorem rd16_of_drop {xs ys : Bytes} {o : Nat} {v : BitVec 16} (h : xs.drop o = le16 v ++ ys) : rd16 xs o = v := by
  rw [rd16_eq_rd16_drop, h, rd16_le16]

theorem rd32_of_drop {xs ys : Bytes} {o : Nat} {v : BitVec 32} (h : xs.drop o = le32 v ++ ys) : rd32 xs o = v := by
  rw [rd32_eq_rd32_drop, h, rd32_le32]

section
variable {xs data ys : Bytes} {o : Nat} (hfits : fitsLength data = true) (h : xs.drop o = lengthPrefixed data ++ ys)
include hfits h

/-- R80, R81: the LEN field gives the length of the byte string behind it. -/
theorem toNat_rd32_of_drop : (rd32 xs o).toNat = data.length := by
  rw [lengthPrefixed, List.append_assoc] at h
  rw [rd32_of_drop h, BitVec.toNat_ofNat, Nat.mod_eq_of_lt (by simpa [fitsLength] using hfits)]

theorem slice_of_drop_lengthPrefixed : slice xs (o + 4) (o + 4 + (rd32 xs o).toNat) = data := by
  have hdrop : xs.drop (o + 4) = data ++ ys := by rw [← List.drop_drop, h]; rfl
  rw [slice, hdrop, toNat_rd32_of_drop hfits h, Nat.add_sub_cancel_left, List.take_left]

theorem drop_of_drop_lengthPrefixed : xs.drop (o + 4 + (rd32 xs o).toNat) = ys := by
  have hdrop : xs.drop (o + 4) = data ++ ys := by rw [← List.drop_drop, h]; rfl
  rw [← List.drop_drop, hdrop, toNat_rd32_of_drop hfits h, List.drop_left]

end

/-- R134: every field comes back from its offset of R60. -/
@[simp] theorem unpackHeader_packHeader (h : Header) : unpackHeader (packHeader h) = h := by
  have hmagic : rd16 (packHeader h) 0 = h.magic := rd16_of_drop rfl
  have hseq : rd32 (packHeader h) 4 = h.seq := rd32_of_drop rfl
  have hack : rd32 (packHeader h) 8 = h.ack := rd32_of_drop rfl
  rw [unpackHeader, hmagic, hseq, hack]; rfl

/-! What was read at an offset writes back. -/

theorem byteAt_cons_drop {xs : Bytes} {o : Nat} (h : o < xs.length) : byteAt xs o :: xs.drop (o + 1) = xs.drop o := by
  rw [List.drop_eq_getElem_cons h, byteAt, List.getD_eq_getElem _ _ h]

theorem le16_rd16_append_drop {xs : Bytes} {o : Nat} (h : o + 2 ≤ xs.length) :
    le16 (rd16 xs o) ++ xs.drop (o + 2) = xs.drop o := by
  have hdrop : xs.drop o = byteAt xs o :: byteAt xs (o + 1) :: xs.drop (o + 2) := by
    rw [byteAt_cons_drop (by omega), byteAt_cons_drop (by omega)]
  rw [rd16_eq_rd16_drop, hdrop, le16_rd16]; rfl

theorem le32_rd32_append_drop {xs : Bytes} {o : Nat} (h : o + 4 ≤ xs.length) :
    le32 (rd32 xs o) ++ xs.drop (o + 4) = xs.drop o := by
  have hdrop : xs.drop o =
      byteAt xs o :: byteAt xs (o + 1) :: byteAt xs (o + 2) :: byteAt xs (o + 3) :: xs.drop (o + 4) := by
    rw [byteAt_cons_drop (by omega), byteAt_cons_drop (by omega), byteAt_cons_drop (by omega), byteAt_cons_drop (by omega)]
  rw [rd32_eq_rd32_drop, hdrop, le32_rd32]; rfl

/-- R80, R81: a byte string read by its LEN field, to the end of the record, is written back with that field. -/
theorem lengthPrefixed_slice {xs : Bytes} {o : Nat} (h : xs.length = o + 4 + (rd32 xs o).toNat) :
    lengthPrefixed (slice xs (o + 4) (o + 4 + (rd32 xs o).toNat)) = xs.drop o := by
  have hdata : slice xs (o + 4) (o + 4 + (rd32 xs o).toNat) = xs.drop (o + 4) := by
    rw [slice, ← h, ← List.length_drop, List.take_length]
  have hlen : (xs.drop (o + 4)).length = (rd32 xs o).toNat := by rw [List.length_drop]; omega
  rw [hdata, lengthPrefixed, hlen, BitVec.ofNat_toNat, BitVec.setWidth_eq, le32_rd32_append_drop (by omega)]

theorem fitsLength_slice_rd32 (xs : Bytes) (a o : Nat) : fitsLength (slice xs a (a + (rd32 xs o).toNat)) = true := by
  have hlt : (rd32 xs o).toNat < 2 ^ 32 := (rd32 xs o).isLt
  have hle : (slice xs a (a + (rd32 xs o).toNat)).length ≤ (rd32 xs o).toNat := by rw [slice_length]; omega
  exact decide_eq_true (by omega)

/-- R134: the fields of 16 bytes, in order, are those bytes. -/
theorem packHeader_unpackHeader {v : Bytes} (h : v.length = 16) : packHeader (unpackHeader v) = v := by
  have hend : v.drop 16 = [] := List.drop_eq_nil_of_le h.le
  simp only [packHeader, unpackHeader, List.append_assoc, List.cons_append, List.nil_append]
  rw [← hend, byteAt_cons_drop (by omega), byteAt_cons_drop (by omega), byteAt_cons_drop (by omega),
    byteAt_cons_drop (by omega), le32_rd32_append_drop (by omega), le32_rd32_append_drop (by omega),
    byteAt_cons_drop (by omega), byteAt_cons_drop (by omega), le16_rd16_append_drop (by omega), List.drop_zero]

end Sys2Proof.Machine
end

section
/-! SUPPORT. The rows of the opcode map (30_encoding.md R82), when a record decodes (R83), and what each format's operands are the
record of (R80, R81). -/

namespace Sys2Proof.Machine

/-- R82: the whole of byte 0 selects the row. -/
theorem rowOf_eq_some {b : Byte} {row : OpRow} (h : rowOf b = some row) : row ∈ opTable ∧ b = row.code := by
  have hmem : row ∈ opTable := List.mem_of_find?_eq_some h
  have hmask : row.mask = BitVec.allOnes 8 := (by decide : ∀ r ∈ opTable, r.mask = BitVec.allOnes 8) row hmem
  have hcode : (b &&& row.mask == row.code) = true := List.find?_some (p := fun r : OpRow => b &&& r.mask == r.code) h
  rw [hmask, BitVec.and_allOnes] at hcode
  exact ⟨hmem, eq_of_beq hcode⟩

/-- R83: a record is the command its row assembles, when it has the length of the row's format. -/
theorem decode_eq_command_iff {bytes : Bytes} {i : Instr} : decode bytes = .command i ↔
    ∃ row rest, bytes = row.code :: rest ∧ rowOf row.code = some row ∧ lengthMatches row.format bytes = true ∧
      assembleOperands row.op bytes = i := by
  constructor
  · intro h
    unfold decode at h
    split at h
    · cases h
    next b rest =>
      split at h
      · cases h
      next row hrow =>
        obtain ⟨-, rfl⟩ := rowOf_eq_some hrow
        split at h
        next hlen => cases h; exact ⟨row, rest, rfl, hrow, hlen, rfl⟩
        next => cases h
  · rintro ⟨row, rest, rfl, hrow, hlen, rfl⟩
    simp [decode, hrow, hlen]

/-- R80, R82: `EncodeHead` for every command. -/
theorem encode_head (i : Instr) : Laws.EncodeHead.Statement i := by
  cases i with
  | crc16 data => exact Laws.EncodeHead.crc16 data
  | cobsEnc data => exact Laws.EncodeHead.cobsEnc data
  | cobsDec data => exact Laws.EncodeHead.cobsDec data
  | hdrPack h => exact Laws.EncodeHead.hdrPack h
  | hdrUnpack v => exact Laws.EncodeHead.hdrUnpack v
  | frameEnc type seq ack flags src dst body => exact Laws.EncodeHead.frameEnc type seq ack flags src dst body
  | frameDec wire => exact Laws.EncodeHead.frameDec wire
  | feed data => exact Laws.EncodeHead.feed data
  | rdrClear => exact Laws.EncodeHead.rdrClear
  | maxaccWr value => exact Laws.EncodeHead.maxaccWr value
  | maxaccRd => exact Laws.EncodeHead.maxaccRd
  | statusRd => exact Laws.EncodeHead.statusRd

/-! The operands of the encoder's records. -/

theorem encode_hdrPack (h : Header) : encode (.hdrPack h) = 0x04 :: packHeader h := by
  simp [encode, packHeader]

theorem headerOperand_cons (code : Byte) (v : Bytes) : headerOperand (code :: v) = unpackHeader v := rfl

theorem dataOperand_lengthPrefixed (code : Byte) {data : Bytes} (h : fitsLength data = true) :
    dataOperand (code :: lengthPrefixed data) = data :=
  slice_of_drop_lengthPrefixed (o := 1) h (List.append_nil _).symm

/-- R81: the operands assembled from the record of a command are its operands. -/
theorem assembleOperands_encode {i : Instr} (h : i.WellFormed) : assembleOperands i.op (encode i) = i := by
  cases i with
  | crc16 data => exact congrArg Instr.crc16 (dataOperand_lengthPrefixed 0x01 h)
  | cobsEnc data => exact congrArg Instr.cobsEnc (dataOperand_lengthPrefixed 0x02 h)
  | cobsDec data => exact congrArg Instr.cobsDec (dataOperand_lengthPrefixed 0x03 h)
  | frameDec wire => exact congrArg Instr.frameDec (dataOperand_lengthPrefixed 0x07 h)
  | feed data => exact congrArg Instr.feed (dataOperand_lengthPrefixed 0x08 h)
  | hdrPack hd =>
    rw [encode_hdrPack]
    exact congrArg Instr.hdrPack ((headerOperand_cons 0x04 _).trans (unpackHeader_packHeader hd))
  | hdrUnpack v =>
    have hlen : v.length = 16 := by simpa [Instr.WellFormed, Instr.wellFormed, Config.hdrLen] using h
    exact congrArg Instr.hdrUnpack (List.take_of_length_le hlen.le)
  | frameEnc type seq ack flags src dst body =>
    have hseq : rd32 (encode (.frameEnc type seq ack flags src dst body)) 2 = seq := rd32_of_drop rfl
    have hack : rd32 (encode (.frameEnc type seq ack flags src dst body)) 6 = ack := rd32_of_drop rfl
    have hbody := slice_of_drop_lengthPrefixed (xs := encode (.frameEnc type seq ack flags src dst body)) (o := 13) h
      (List.append_nil _).symm
    rw [Instr.op, assembleOperands, hseq, hack, hbody]; rfl
  | maxaccWr value => exact congrArg Instr.maxaccWr (rd32_of_drop (ys := []) rfl)
  | rdrClear | maxaccRd | statusRd => rfl

/-! The record of the assembled operands, for each format. -/

theorem lengthPrefixed_dataOperand {code : Byte} {rest : Bytes} (h : lengthMatches .b (code :: rest) = true) :
    fitsLength (dataOperand (code :: rest)) = true ∧ code :: lengthPrefixed (dataOperand (code :: rest)) = code :: rest := by
  obtain ⟨-, hlen⟩ : 5 ≤ _ ∧ (code :: rest).length = 5 + (rd32 (code :: rest) 1).toNat := by
    simpa only [lengthMatches, Bool.and_eq_true, decide_eq_true_eq, beq_iff_eq] using h
  exact ⟨fitsLength_slice_rd32 _ 5 1, congrArg (code :: ·) (lengthPrefixed_slice (o := 1) hlen)⟩

/-- R83: a record of format N is its code alone. -/
theorem eq_nil_of_lengthMatches_n {code : Byte} {rest : Bytes} (h : lengthMatches .n (code :: rest) = true) : rest = [] := by
  simpa [lengthMatches] using h

theorem encode_frameEnc_operands {rest : Bytes} (h : lengthMatches .f (0x06 :: rest) = true) :
    (assembleOperands .frameEnc (0x06 :: rest)).WellFormed ∧ encode (assembleOperands .frameEnc (0x06 :: rest)) = 0x06 :: rest := by
  obtain ⟨-, hlen⟩ : 17 ≤ _ ∧ (0x06 :: rest).length = 17 + (rd32 (0x06 :: rest) 13).toNat := by
    simpa only [lengthMatches, Bool.and_eq_true, decide_eq_true_eq, beq_iff_eq] using h
  have hbody := lengthPrefixed_slice (xs := 0x06 :: rest) (o := 13) hlen
  refine ⟨fitsLength_slice_rd32 _ 17 13, ?_⟩
  simp only [assembleOperands, encode, List.append_assoc, List.cons_append, List.nil_append]
  rw [hbody, byteAt_cons_drop (by omega), byteAt_cons_drop (by omega), byteAt_cons_drop (by omega),
    le32_rd32_append_drop (by omega), le32_rd32_append_drop (by omega), byteAt_cons_drop (by omega)]
  rfl

/-- R80, R81: what a row assembles from a record of its length is well-formed, and that record is its encoding. -/
theorem encode_assembleOperands {row : OpRow} {rest : Bytes} (hrow : row ∈ opTable)
    (hlen : lengthMatches row.format (row.code :: rest) = true) :
    (assembleOperands row.op (row.code :: rest)).WellFormed ∧
      encode (assembleOperands row.op (row.code :: rest)) = row.code :: rest := by
  simp only [opTable, List.mem_cons, List.not_mem_nil, or_false] at hrow
  obtain rfl | rfl | rfl | rfl | rfl | rfl | rfl | rfl | rfl | rfl | rfl | rfl := hrow
  · exact lengthPrefixed_dataOperand hlen
  · exact lengthPrefixed_dataOperand hlen
  · exact lengthPrefixed_dataOperand hlen
  · have hrest : rest.length = 16 := by simpa [lengthMatches] using hlen
    exact ⟨rfl, (encode_hdrPack _).trans (congrArg (0x04 :: ·) (packHeader_unpackHeader hrest))⟩
  · have hrest : rest.length = 16 := by simpa [lengthMatches] using hlen
    have hdata : slice (0x05 :: rest) 1 17 = rest := List.take_of_length_le hrest.le
    have hwf : (Instr.hdrUnpack (slice (0x05 :: rest) 1 17)).WellFormed := by rw [hdata]; exact beq_iff_eq.mpr hrest
    exact ⟨hwf, congrArg (0x05 :: ·) hdata⟩
  · exact encode_frameEnc_operands hlen
  · exact lengthPrefixed_dataOperand hlen
  · exact lengthPrefixed_dataOperand hlen
  · obtain rfl := eq_nil_of_lengthMatches_n hlen; exact ⟨rfl, rfl⟩
  · have hrest : rest.length = 4 := by simpa [lengthMatches] using hlen
    have hvalue : le32 (rd32 (0x0A :: rest) 1) ++ rest.drop 4 = rest := le32_rd32_append_drop (xs := 0x0A :: rest) (by simp [hrest])
    rw [List.drop_eq_nil_of_le hrest.le, List.append_nil] at hvalue
    exact ⟨rfl, congrArg (0x0A :: ·) hvalue⟩
  · obtain rfl := eq_nil_of_lengthMatches_n hlen; exact ⟨rfl, rfl⟩
  · obtain rfl := eq_nil_of_lengthMatches_n hlen; exact ⟨rfl, rfl⟩

/-! The legal records of R83, written out code by code, are those of the rows. -/

/-- A byte at its place in a 32-bit word. -/
theorem toNat_byte_shiftLeft (b : Byte) {k : Nat} (h : k ≤ 24) : (b.setWidth 32 <<< k).toNat = b.toNat * 2 ^ k := by
  have hlt : b.toNat * 2 ^ k < 2 ^ 32 := calc
    b.toNat * 2 ^ k < 2 ^ 8 * 2 ^ k := by gcongr; exact b.isLt
    _ ≤ 2 ^ 8 * 2 ^ 24 := by gcongr; decide
  rw [BitVec.toNat_shiftLeft, BitVec.toNat_setWidth_of_le (by decide), Nat.shiftLeft_eq, Nat.mod_eq_of_lt hlt]

/-- Bits above bit `k` are added to a value below it. -/
theorem or_mul_two_pow {k low : Nat} (high : Nat) (h : low < 2 ^ k) : low ||| high * 2 ^ k = low + high * 2 ^ k := by
  rw [Nat.or_comm, ← Nat.shiftLeft_eq, ← Nat.shiftLeft_add_eq_or_of_lt h, Nat.add_comm]

/-- R40: the four bytes weighted by their places are the value `rd32` reads. -/
theorem littleEndian32_eq_toNat_rd32 (bytes : Bytes) (o : Nat) : littleEndian32 bytes o = (rd32 bytes o).toNat := by
  have h0 := (byteAt bytes o).isLt
  have h1 := (byteAt bytes (o + 1)).isLt
  have h2 := (byteAt bytes (o + 2)).isLt
  rw [rd32, BitVec.toNat_or, BitVec.toNat_or, BitVec.toNat_or, BitVec.toNat_setWidth_of_le (by decide),
    toNat_byte_shiftLeft _ (by decide), toNat_byte_shiftLeft _ (by decide), toNat_byte_shiftLeft _ (by decide),
    or_mul_two_pow (k := 8) _ (by omega), or_mul_two_pow (k := 16) _ (by omega), or_mul_two_pow (k := 24) _ (by omega)]
  simp only [littleEndian32, byteAt]
  omega

/-- R82: a byte 0 without a row is 0x00 or above 0x0C. -/
theorem toNat_of_rowOf_none {b : Byte} (h : rowOf b = none) : b.toNat = 0 ∨ 13 ≤ b.toNat := by
  revert b; decide

theorem recordIsLegal_of_row {row : OpRow} (hrow : row ∈ opTable) (rest : Bytes) :
    recordIsLegal (row.code :: rest) = lengthMatches row.format (row.code :: rest) := by
  simp only [opTable, List.mem_cons, List.not_mem_nil, or_false] at hrow
  obtain rfl | rfl | rfl | rfl | rfl | rfl | rfl | rfl | rfl | rfl | rfl | rfl := hrow <;>
    simp [recordIsLegal, lengthMatches, littleEndian32_eq_toNat_rd32]

theorem recordIsLegal_of_no_row {b : Byte} (h : rowOf b = none) (rest : Bytes) : recordIsLegal (b :: rest) = false := by
  have hcode := toNat_of_rowOf_none h
  simp only [recordIsLegal]
  split
  case h_13 => rfl
  all_goals omega

end Sys2Proof.Machine
end

section
/-! The statements on command records (30_encoding.md Part B). -/

namespace Sys2Proof.Machine

/-- Settles O1: the record has its command's row and that row's length, and the operands read back from it. -/
theorem decodeOfEncodeIsTheCommand : Obligations.DecodeOfEncodeIsTheCommand := by
  intro i hwf
  obtain ⟨row, rest, hrecord, hrow, hop, hlen⟩ := encode_head i hwf
  exact decode_eq_command_iff.mpr ⟨row, rest, hrecord, hrow, hlen, by rw [hop, assembleOperands_encode hwf]⟩

/-- Settles O2: a record that decodes has a row of the map and its length. -/
theorem encodeOfDecodeIsTheRecord : Obligations.EncodeOfDecodeIsTheRecord := by
  intro bytes i h
  obtain ⟨row, rest, rfl, hrow, hlen, rfl⟩ := decode_eq_command_iff.mp h
  obtain ⟨hmem, -⟩ := rowOf_eq_some hrow
  exact encode_assembleOperands hmem hlen

/-- Settles O3: byte 0 has a row, which the code-by-code test follows, or is reserved in both. -/
theorem legalRecordsExactly : Obligations.LegalRecordsExactly := by
  intro bytes
  constructor
  · rintro ⟨i, h⟩
    obtain ⟨row, rest, rfl, hrow, hlen, -⟩ := decode_eq_command_iff.mp h
    rw [recordIsLegal_of_row (rowOf_eq_some hrow).1, hlen]
  · intro hlegal
    cases bytes with
    | nil => cases hlegal
    | cons b rest =>
      cases hrow : rowOf b with
      | none => rw [recordIsLegal_of_no_row hrow] at hlegal; cases hlegal
      | some row =>
        obtain ⟨hmem, rfl⟩ := rowOf_eq_some hrow
        rw [recordIsLegal_of_row hmem] at hlegal
        exact ⟨_, decode_eq_command_iff.mpr ⟨row, rest, rfl, hrow, hlegal, rfl⟩⟩

/-- Settles O4, by running the decoder on each record. -/
theorem sampleRecordsDecode : Obligations.SampleRecordsDecode := by
  unfold Obligations.SampleRecordsDecode; decide

end Sys2Proof.Machine
end

section
/-! SUPPORT. The COBS encoder segment by segment (41_cobs.md R110): how a byte string splits at its 0x00 bytes, and what one segment
and all of them become. -/

namespace Sys2Proof.Machine

/-! The segments of a byte string. -/

theorem splitAtZeros_of_zeroFree {seg : Bytes} (h : ∀ b ∈ seg, b ≠ 0x00) : splitAtZeros seg = [seg] := by
  induction seg with
  | nil => rfl
  | cons b bs ih =>
    rw [List.forall_mem_cons] at h
    rw [splitAtZeros, if_neg h.1, ih h.2]

theorem splitAtZeros_append_zero {seg : Bytes} (h : ∀ b ∈ seg, b ≠ 0x00) (x : Bytes) :
    splitAtZeros (seg ++ 0x00 :: x) = seg :: splitAtZeros x := by
  induction seg with
  | nil => rfl
  | cons b bs ih =>
    rw [List.forall_mem_cons] at h
    rw [List.cons_append, splitAtZeros, if_neg h.1, ih h.2]

theorem splitAtZeros_ne_nil (x : Bytes) : splitAtZeros x ≠ [] := by
  cases x with
  | nil => simp [splitAtZeros]
  | cons b bs =>
    rw [splitAtZeros]
    split
    · simp
    · split <;> simp

/-- A byte string is its last segment, or a segment, a 0x00 and a byte string: induction along `splitAtZeros`. -/
theorem segment_induction {P : Bytes → Prop} (last : ∀ seg : Bytes, (∀ b ∈ seg, b ≠ 0x00) → P seg)
    (more : ∀ seg x : Bytes, (∀ b ∈ seg, b ≠ 0x00) → P x → P (seg ++ 0x00 :: x)) (x : Bytes) : P x := by
  have hprefix : ∀ seg : Bytes, (∀ b ∈ seg, b ≠ 0x00) → P (seg ++ x) := by
    induction x with
    | nil => intro seg hseg; rw [List.append_nil]; exact last seg hseg
    | cons b bs ih =>
      intro seg hseg
      by_cases hb : b = 0x00
      · rw [hb]; exact more seg bs hseg (ih [] (by simp))
      · rw [← List.singleton_append, ← List.append_assoc]
        exact ih (seg ++ [b]) (by simpa [or_imp, forall_and] using ⟨hseg, hb⟩)
  exact hprefix [] (by simp)

/-! The groups of one segment. -/

/-- R66: the code of a group with at most 254 data bytes is one more than they are, which fits a byte. -/
theorem toNat_groupCode {n : Nat} (h : n ≤ 254) : (BitVec.ofNat 8 (n + 1)).toNat = n + 1 := by
  rw [BitVec.toNat_ofNat, Nat.mod_eq_of_lt (by omega)]

theorem groupCode_ne_zero {n : Nat} (h : n ≤ 254) : BitVec.ofNat 8 (n + 1) ≠ 0x00 := fun hzero => by
  have := toNat_groupCode h
  rw [hzero] at this
  exact absurd this (by simp)

theorem segmentGroups_zeroFree (form : FinalFullGroup) (last : Bool) {full : Nat} {seg : Bytes}
    (hfull : seg.length / 254 = full) (hseg : ∀ b ∈ seg, b ≠ 0x00) : ∀ b ∈ segmentGroups form last full seg, b ≠ 0x00 := by
  induction full generalizing seg with
  | zero =>
    rw [segmentGroups, List.forall_mem_cons]
    exact ⟨groupCode_ne_zero (by omega), hseg⟩
  | succ full ih =>
    have hrest : (seg.drop 254).length / 254 = full := by rw [List.length_drop]; omega
    have hgroups := ih hrest fun b hb => hseg b (List.mem_of_mem_drop hb)
    intro b hb
    simp only [segmentGroups, List.mem_append, List.mem_cons] at hb
    obtain (rfl | hb) | hb := hb
    · decide
    · exact hseg b (List.mem_of_mem_take hb)
    · split at hb
      · cases hb
      · exact hgroups b hb

/-- R110: a segment gains one code byte, and at most one more for each full group. -/
theorem segmentGroups_length (form : FinalFullGroup) (last : Bool) (full : Nat) (seg : Bytes) :
    seg.length + 1 ≤ (segmentGroups form last full seg).length ∧
      (segmentGroups form last full seg).length ≤ seg.length + 1 + full := by
  induction full generalizing seg with
  | zero => simp [segmentGroups]
  | succ full ih =>
    obtain ⟨hlow, hhigh⟩ := ih (seg.drop 254)
    rw [List.length_drop] at hlow hhigh
    rw [segmentGroups]
    by_cases hend : (last && (seg.drop 254).isEmpty && form == .omitted) = true
    · have hshort : seg.length ≤ 254 := by simp at hend; omega
      simp [Config.cobsMaxRun, hend]; omega
    · simp [Config.cobsMaxRun, hend]; omega

/-! All segments of a byte string. -/

/-- The encoder's bytes before the delimiter, for a byte string with no 0x00. -/
theorem encodeSegments_last (form : FinalFullGroup) {seg : Bytes} (h : ∀ b ∈ seg, b ≠ 0x00) :
    encodeSegments form (splitAtZeros seg) = encodeSegment form true seg := by
  rw [splitAtZeros_of_zeroFree h]; rfl

/-- A segment that a 0x00 ends is encoded, and then what follows. -/
theorem encodeSegments_more (form : FinalFullGroup) {seg : Bytes} (h : ∀ b ∈ seg, b ≠ 0x00) (x : Bytes) :
    encodeSegments form (splitAtZeros (seg ++ 0x00 :: x)) =
      encodeSegment form false seg ++ encodeSegments form (splitAtZeros x) := by
  rw [splitAtZeros_append_zero h, encodeSegments]
  exact splitAtZeros_ne_nil x

theorem encodeSegments_zeroFree (form : FinalFullGroup) (x : Bytes) :
    ∀ b ∈ encodeSegments form (splitAtZeros x), b ≠ 0x00 := by
  induction x using segment_induction with
  | last seg hseg => rw [encodeSegments_last form hseg]; exact segmentGroups_zeroFree form true rfl hseg
  | more seg x hseg ih =>
    rw [encodeSegments_more form hseg, List.forall_mem_append]
    exact ⟨segmentGroups_zeroFree form false rfl hseg, ih⟩

/-- R111: the encoder adds one byte, and at most one more for each 254 bytes; the code byte of a segment before the last stands for
the 0x00 that ends it. -/
theorem encodeSegments_length (form : FinalFullGroup) (x : Bytes) :
    x.length + 1 ≤ (encodeSegments form (splitAtZeros x)).length ∧
      (encodeSegments form (splitAtZeros x)).length ≤ x.length + 1 + x.length / 254 := by
  induction x using segment_induction with
  | last seg hseg => rw [encodeSegments_last form hseg]; exact segmentGroups_length form true _ seg
  | more seg x hseg ih =>
    have hsegment := segmentGroups_length form false (seg.length / 254) seg
    rw [encodeSegments_more form hseg, List.length_append, List.length_append, List.length_cons]
    change _ ≤ (segmentGroups form false (seg.length / 254) seg).length + _ ∧
      (segmentGroups form false (seg.length / 254) seg).length + _ ≤ _
    omega

/-- R111: the encoder's bounds, the delimiter counted. -/
theorem cobsEncode_length (x : Bytes) :
    x.length + 2 ≤ (cobsEncode x).length ∧ (cobsEncode x).length ≤ x.length + 2 + x.length / 254 := by
  have hbody := encodeSegments_length Config.cobsFinalFullGroup x
  rw [cobsEncode, cobsEncodeWith, List.length_append, List.length_singleton]
  omega

end Sys2Proof.Machine
end

section
/-! SUPPORT. The COBS decoder group by group (41_cobs.md R112, 30_encoding.md R66). -/

namespace Sys2Proof.Machine

theorem exceptMap_eq_ok_iff {ε α β : Type} {f : α → β} {x : Except ε α} {b : β} :
    x.map f = .ok b ↔ ∃ a, x = .ok a ∧ f a = b := by
  cases x <;> simp [Except.map]

theorem exceptMap_eq_error_iff {ε α β : Type} {f : α → β} {x : Except ε α} {e : ε} :
    x.map f = .error e ↔ x = .error e := by
  cases x <;> simp [Except.map]

/-! One byte. -/

theorem cobsDecodeFrom_zero_byte (pending : Bool) (need : Nat) (ys : Bytes) :
    cobsDecodeFrom pending need (0x00 :: ys) = .error .cobsInvalid := by
  cases need <;> rfl

theorem cobsDecodeFrom_code (pending : Bool) {code : Byte} (h : code ≠ 0x00) (ys : Bytes) :
    cobsDecodeFrom pending 0 (code :: ys) = (cobsDecodeFrom (code != 0xFF) (code.toNat - 1) ys).map
      fun out => (if pending then [0x00] else []) ++ out := by
  rw [cobsDecodeFrom, if_neg h]

theorem cobsDecodeFrom_data (pending : Bool) (need : Nat) {b : Byte} (h : b ≠ 0x00) (ys : Bytes) :
    cobsDecodeFrom pending (need + 1) (b :: ys) = (cobsDecodeFrom pending need ys).map fun out => b :: out := by
  rw [cobsDecodeFrom, if_neg h]

/-- R112, R113: the decoder fails as Truncated or as CobsInvalid. -/
theorem cobsDecodeFrom_error {pending : Bool} {need : Nat} {y : Bytes} {e : FrameError}
    (h : cobsDecodeFrom pending need y = .error e) : e = .truncated ∨ e = .cobsInvalid := by
  induction y generalizing pending need with
  | nil =>
    cases need with
    | zero => cases h
    | succ need => cases h; exact .inl rfl
  | cons b ys ih =>
    by_cases hb : b = 0x00
    · rw [hb, cobsDecodeFrom_zero_byte] at h; cases h; exact .inr rfl
    · cases need with
      | zero => rw [cobsDecodeFrom_code pending hb, exceptMap_eq_error_iff] at h; exact ih h
      | succ need => rw [cobsDecodeFrom_data pending need hb, exceptMap_eq_error_iff] at h; exact ih h

/-! The data bytes of one group. -/

theorem cobsDecodeFrom_append (pending : Bool) {data : Bytes} (h : ∀ b ∈ data, b ≠ 0x00) (ys : Bytes) :
    cobsDecodeFrom pending data.length (data ++ ys) = (cobsDecodeFrom pending 0 ys).map fun out => data ++ out := by
  induction data with
  | nil => cases hdec : cobsDecodeFrom pending 0 ys <;> simp [hdec, Except.map]
  | cons b bs ih =>
    rw [List.forall_mem_cons] at h
    rw [List.length_cons, List.cons_append, cobsDecodeFrom_data pending _ h.1, ih h.2]
    cases cobsDecodeFrom pending 0 ys <;> rfl

/-- What decodes while data bytes are needed has those bytes in front. -/
theorem cobsDecodeFrom_split {pending : Bool} {need : Nat} {y x : Bytes} (h : cobsDecodeFrom pending need y = .ok x) :
    ∃ data ys out, y = data ++ ys ∧ data.length = need ∧ (∀ b ∈ data, b ≠ 0x00) ∧
      cobsDecodeFrom pending 0 ys = .ok out ∧ x = data ++ out := by
  induction need generalizing y x with
  | zero => exact ⟨[], y, x, rfl, rfl, by simp, h, rfl⟩
  | succ need ih =>
    cases y with
    | nil => cases h
    | cons b bs =>
      by_cases hb : b = 0x00
      · rw [hb, cobsDecodeFrom_zero_byte] at h; cases h
      · rw [cobsDecodeFrom_data pending need hb, exceptMap_eq_ok_iff] at h
        obtain ⟨tail, htail, rfl⟩ := h
        obtain ⟨data, ys, out, rfl, rfl, hdata, hout, rfl⟩ := ih htail
        exact ⟨b :: data, ys, out, rfl, rfl, List.forall_mem_cons.mpr ⟨hb, hdata⟩, hout, rfl⟩

/-! Groups. -/

theorem isGroupData_iff {data : Bytes} : isGroupData data = true ↔ data.length ≤ 254 ∧ ∀ b ∈ data, b ≠ 0x00 := by
  rw [isGroupData, Bool.and_eq_true, decide_eq_true_eq]; simp [Config.cobsMaxRun]

/-- A code byte other than 0x00 counts at most 254 data bytes, and is the code of a group of so many. -/
theorem groupCode_of_ne_zero {code : Byte} (h : code ≠ 0x00) :
    code.toNat - 1 ≤ 254 ∧ code = BitVec.ofNat 8 (code.toNat - 1 + 1) := by
  have hpos : code.toNat ≠ 0 := fun hzero => h (BitVec.eq_of_toNat_eq hzero)
  refine ⟨by omega, ?_⟩
  rw [Nat.sub_add_cancel (by omega), BitVec.ofNat_toNat, BitVec.setWidth_eq]

/-- R112: the code 0xFF, which no implied 0x00 follows, is that of a full group. -/
theorem groupCode_bne_full {n : Nat} (h : n ≤ 254) : (BitVec.ofNat 8 (n + 1) != 0xFF) = (n != 254) := by
  have hcode := toNat_groupCode h
  rw [Bool.eq_iff_iff, bne_iff_ne, bne_iff_ne, not_iff_not, ← BitVec.toNat_inj, hcode]
  change n + 1 = 255 ↔ _
  omega

/-- What a sequence of groups stands for (R66) after a group that owes an implied 0x00, or does not: the 0x00 stands before the first
group, if there is one. -/
def groupsMeaningAfter (pending : Bool) : List Bytes → Bytes
  | [] => []
  | data :: groups => (if pending then [0x00] else []) ++ groupsMeaning (data :: groups)

theorem groupsMeaningAfter_false (groups : List Bytes) : groupsMeaningAfter false groups = groupsMeaning groups := by
  cases groups <;> rfl

theorem groupsMeaning_cons (data : Bytes) (groups : List Bytes) :
    groupsMeaning (data :: groups) = data ++ groupsMeaningAfter (data.length != 254) groups := by
  cases groups with
  | nil => simp [groupsMeaning, groupsMeaningAfter]
  | cons next groups => by_cases hfull : data.length = 254 <;> simp [groupsMeaning, groupsMeaningAfter, Config.cobsMaxRun, hfull]

/-- R66: a group's code byte counts its implied 0x00, so groups stand for no more bytes than they have. -/
theorem groupsMeaningAfter_length_le (pending : Bool) (groups : List Bytes) :
    (groupsMeaningAfter pending groups).length ≤ (groups.flatMap groupBytes).length := by
  induction groups generalizing pending with
  | nil => exact le_rfl
  | cons data groups ih =>
    have hrest := ih (data.length != 254)
    rw [groupsMeaningAfter, groupsMeaning_cons, List.flatMap_cons]
    have hlead : (if pending then [0x00] else [] : Bytes).length ≤ 1 := by cases pending <;> decide
    simp only [List.length_append, groupBytes, List.length_cons]
    omega

/-- One group of R66 in front of any bytes. -/
theorem cobsDecodeFrom_group (pending : Bool) {data : Bytes} (h : isGroupData data = true) (ys : Bytes) :
    cobsDecodeFrom pending 0 (groupBytes data ++ ys) = (cobsDecodeFrom (data.length != 254) 0 ys).map
      fun out => (if pending then [0x00] else []) ++ (data ++ out) := by
  obtain ⟨hlen, hdata⟩ := isGroupData_iff.mp h
  rw [groupBytes, List.cons_append, cobsDecodeFrom_code pending (groupCode_ne_zero hlen), toNat_groupCode hlen,
    groupCode_bne_full hlen, Nat.add_sub_cancel, cobsDecodeFrom_append _ hdata]
  cases cobsDecodeFrom (data.length != 254) 0 ys <;> rfl

/-- What decodes is nothing, or one group of R66 in front of bytes that decode. -/
theorem cobsDecodeFrom_group_split {pending : Bool} {code : Byte} {y x : Bytes}
    (h : cobsDecodeFrom pending 0 (code :: y) = .ok x) : ∃ data ys out, isGroupData data = true ∧
      code :: y = groupBytes data ++ ys ∧ cobsDecodeFrom (data.length != 254) 0 ys = .ok out ∧
      x = (if pending then [0x00] else []) ++ (data ++ out) := by
  by_cases hcode : code = 0x00
  · rw [hcode, cobsDecodeFrom_zero_byte] at h; cases h
  · rw [cobsDecodeFrom_code pending hcode, exceptMap_eq_ok_iff] at h
    obtain ⟨tail, htail, rfl⟩ := h
    obtain ⟨data, ys, out, rfl, hlen, hdata, hout, rfl⟩ := cobsDecodeFrom_split htail
    obtain ⟨hle, hcodeEq⟩ := groupCode_of_ne_zero hcode
    rw [← hlen] at hle hcodeEq
    rw [hcodeEq, groupCode_bne_full hle] at hout
    exact ⟨data, ys, out, isGroupData_iff.mpr ⟨hle, hdata⟩, by rw [groupBytes, ← hcodeEq]; rfl, hout, rfl⟩

/-- R66, R112: between groups, the decoder accepts exactly the group sequences. -/
theorem cobsDecodeFrom_eq_ok_iff {pending : Bool} {y x : Bytes} : cobsDecodeFrom pending 0 y = .ok x ↔
    ∃ groups : List Bytes, (∀ g ∈ groups, isGroupData g = true) ∧ y = groups.flatMap groupBytes ∧
      x = groupsMeaningAfter pending groups := by
  constructor
  · intro h
    induction hn : y.length using Nat.strong_induction_on generalizing pending y x with
    | _ n ih =>
      cases y with
      | nil => cases h; exact ⟨[], by simp, rfl, rfl⟩
      | cons code y =>
        obtain ⟨data, ys, out, hdata, hsplit, hout, rfl⟩ := cobsDecodeFrom_group_split h
        have hshort : ys.length < n := by rw [← hn, hsplit]; simp [groupBytes]
        obtain ⟨groups, hgroups, rfl, rfl⟩ := ih _ hshort hout rfl
        exact ⟨data :: groups, List.forall_mem_cons.mpr ⟨hdata, hgroups⟩, hsplit, by
          rw [groupsMeaningAfter, groupsMeaning_cons]⟩
  · rintro ⟨groups, hgroups, rfl, rfl⟩
    induction groups generalizing pending with
    | nil => rfl
    | cons data groups ih =>
      rw [List.forall_mem_cons] at hgroups
      rw [List.flatMap_cons, cobsDecodeFrom_group pending hgroups.1, ih hgroups.2, groupsMeaningAfter, groupsMeaning_cons]
      rfl

theorem cobsDecode_eq_ok_iff {y x : Bytes} : cobsDecode y = .ok x ↔ ∃ groups : List Bytes,
    (∀ g ∈ groups, isGroupData g = true) ∧ y = groups.flatMap groupBytes ∧ x = groupsMeaning groups := by
  simp only [cobsDecode, cobsDecodeFrom_eq_ok_iff, groupsMeaningAfter_false]

theorem cobsDecode_length_le {y x : Bytes} (h : cobsDecode y = .ok x) : x.length ≤ y.length := by
  obtain ⟨groups, -, rfl, rfl⟩ := cobsDecode_eq_ok_iff.mp h
  simpa only [groupsMeaningAfter_false] using groupsMeaningAfter_length_le false groups

end Sys2Proof.Machine
end

section
/-! SUPPORT. The length field in a response (R86). -/

namespace Sys2Proof.Machine

/-- R86, log 5: the length field is some 32-bit value, and the length where that fits. -/
theorem exists_lengthField (out : Bytes) :
    ∃ n : BitVec 32, lengthField out = le32 n ∧ (out.length < 2 ^ 32 → n.toNat = out.length) :=
  ⟨_, rfl, fun h => by rw [if_pos h, BitVec.toNat_ofNat, Nat.mod_eq_of_lt h]⟩

theorem bytesResponse_ok_of_lt {out : Bytes} (h : out.length < 2 ^ 32) :
    bytesResponse (.ok out) = 0x00 :: (le32 (BitVec.ofNat 32 out.length) ++ out) := by
  rw [← lengthField_of_lt h]; rfl

end Sys2Proof.Machine
end

section
/-! The statements on COBS (41_cobs.md). -/

namespace Sys2Proof.Machine

/-- Settles O22: neither a code byte nor a data byte is 0x00, and the lengths are those of the segments' groups. -/
theorem cobsEncodedShape : Obligations.CobsEncodedShape := fun x =>
  ⟨⟨_, rfl, encodeSegments_zeroFree Config.cobsFinalFullGroup x⟩, cobsEncode_length x⟩

/-- Settles O21: the field is the length, as the bound of R111 fits it. -/
theorem cobsEncAnswers : Obligations.CobsEncAnswers := by
  intro data s
  obtain ⟨n, hfield, hn⟩ := exists_lengthField (cobsEncode data)
  have hlen := (cobsEncode_length data).2
  exact ⟨n, by rw [← hfield]; rfl, fun hbound => hn (by omega)⟩

/-- Settles O27: induction over the groups. -/
theorem cobsDecodeReadsGroups : Obligations.CobsDecodeReadsGroups := fun _ _ => cobsDecode_eq_ok_iff

/-- Settles O25: the decoder's result is one of three, and what decodes is no longer than its operand. -/
theorem cobsDecAnswers : Obligations.CobsDecAnswers := by
  intro data s hdata
  have hexec : exec (.cobsDec data) s = .next (s.respond (bytesResponse (cobsDecode data))) := rfl
  cases hdec : cobsDecode data with
  | ok out =>
    have hle := cobsDecode_length_le hdec
    refine .inl ⟨out, rfl, hle, ?_⟩
    rw [hexec, hdec, bytesResponse_ok_of_lt (by omega)]; rfl
  | error e =>
    rw [hexec, hdec]
    obtain rfl | rfl := cobsDecodeFrom_error hdec
    · exact .inr (.inl ⟨rfl, rfl⟩)
    · exact .inr (.inr ⟨rfl, rfl⟩)

end Sys2Proof.Machine
end

section
/-! SUPPORT. The frame assembler (43_frame_assembler.md R140, 30_encoding.md R67) and the decode pipeline (44_stream_reader.md R150),
one lemma for each way out, and what the pipeline's errors are. -/

namespace Sys2Proof.Machine

theorem encodeFrame_of_le {type : Byte} {seq ack : BitVec 32} {flags src dst : Byte} {body : Bytes}
    (h : body.length ≤ 65535) : encodeFrame type seq ack flags src dst body =
      .ok (cobsEncode (withCrc (packHeader (assembledHeader type seq ack flags src dst) ++ body))) := by
  rw [encodeFrame, Config.maxBody, if_neg (Nat.not_lt.mpr h)]

theorem encodeFrame_of_gt {type : Byte} {seq ack : BitVec 32} {flags src dst : Byte} {body : Bytes}
    (h : 65535 < body.length) : encodeFrame type seq ack flags src dst body = .error .bodyTooLarge := by
  rw [encodeFrame, Config.maxBody, if_pos h]

theorem cmdBody_of_le {cmd : BitVec 16} {data : Bytes} (h : data.length ≤ 65535) :
    cmdBody cmd data = some (le16 cmd ++ le16 (BitVec.ofNat 16 data.length) ++ data) := by
  rw [cmdBody, Config.maxBody, if_pos h]

theorem cmdBody_of_gt {cmd : BitVec 16} {data : Bytes} (h : 65535 < data.length) : cmdBody cmd data = none := by
  rw [cmdBody, Config.maxBody, if_neg (Nat.not_le.mpr h)]

/-- R60, R140: the assembled header, byte by byte. -/
theorem packHeader_assembledHeader (type : Byte) (seq ack : BitVec 32) (flags src dst : Byte) :
    packHeader (assembledHeader type seq ack flags src dst) =
      [0x5A, 0xA1, 0x01, type] ++ le32 seq ++ le32 ack ++ [flags, src, dst, 0x00] := by
  have hmagic : le16 Config.magic = [0x5A, 0xA1] := by decide
  simp [packHeader, assembledHeader, hmagic, Config.mdpVersion]

@[simp] theorem packHeader_length (h : Header) : (packHeader h).length = 16 := rfl

@[simp] theorem withCrc_length (payload : Bytes) : (withCrc payload).length = payload.length + 2 := by
  rw [withCrc, List.length_append, le16_length]

theorem decodePayload_short {payload : Bytes} (h : payload.length < 16) :
    decodePayload payload = .error (.shortPayload (BitVec.ofNat 8 payload.length)) := by
  rw [decodePayload, if_pos (show payload.length < Config.hdrLen from h)]

theorem decodePayload_frame {payload : Bytes} (h : 16 ≤ payload.length) : decodePayload payload =
    .ok { header := unpackHeader (payload.take 16), body := payload.drop 16,
          info := infoOf (unpackHeader (payload.take 16)) } := by
  rw [decodePayload, if_neg (show ¬ payload.length < Config.hdrLen from Nat.not_lt.mpr h)]; rfl

/-- R85, R191, R192: the errors of the pipeline, with what their payloads can be. -/
def FrameError.OfPipeline : FrameError → Prop
  | .noDelimiter | .cobsInvalid | .tooShort => True
  | .crcMismatch received computed => received ≠ computed
  | .shortPayload len => len.toNat < 16
  | .truncated | .bodyTooLarge | .resourceExceeded | .illegalCommand => False

theorem decodePayload_error {payload : Bytes} {e : FrameError} (h : decodePayload payload = .error e) : e.OfPipeline := by
  by_cases hshort : payload.length < 16
  · cases (decodePayload_short hshort).symm.trans h
    change payload.length % 256 < 16
    omega
  · cases (decodePayload_frame (Nat.not_lt.mp hshort)).symm.trans h

theorem decodeFull_error {d : Bytes} {e : FrameError} (h : decodeFull d = .error e) : e.OfPipeline := by
  unfold decodeFull at h
  split at h
  · cases h; trivial
  · dsimp only at h
    split at h
    next hcrc => cases h; exact hcrc
    next => exact decodePayload_error h

theorem decodeFrame_error {w : Bytes} {e : FrameError} (h : decodeFrame w = .error e) : e.OfPipeline := by
  unfold decodeFrame at h
  split at h
  · cases h; trivial
  · split at h
    · cases h; trivial
    next => exact decodeFull_error h

end Sys2Proof.Machine
end

section
/-! SUPPORT. A reader of result records (30_encoding.md R87): what it returns from a record followed by any bytes is the result and
those bytes. -/

namespace Sys2Proof.Machine

/-- The error a record stands for, by its status code (R85), and the bytes after it. -/
def readErrorRecord (bytes : Bytes) : FrameError × Bytes :=
  match (byteAt bytes 0).toNat with
  | 1 => (.cobsInvalid, bytes.drop 1)
  | 2 => (.truncated, bytes.drop 1)
  | 3 => (.tooShort, bytes.drop 1)
  | 4 => (.crcMismatch (rd16 bytes 1) (rd16 bytes 3), bytes.drop 5)
  | 5 => (.shortPayload (byteAt bytes 1), bytes.drop 2)
  | 6 => (.noDelimiter, bytes.drop 1)
  | 7 => (.bodyTooLarge, bytes.drop 1)
  | 8 => (.resourceExceeded, bytes.drop 1)
  | _ => (.illegalCommand, bytes.drop 1)

/-- The result a record stands for (R87), and the bytes after it: after the status, Info, 16 header bytes, LEN and the body. -/
def readResultRecord (bytes : Bytes) : FrameResult × Bytes :=
  if byteAt bytes 0 = statusOk then
    (.ok { header := unpackHeader (slice bytes 2 18), body := slice bytes 22 (22 + (rd32 bytes 18).toNat),
           info := byteAt bytes 1 }, bytes.drop (22 + (rd32 bytes 18).toNat))
  else (.error (readErrorRecord bytes).1, (readErrorRecord bytes).2)

theorem readErrorRecord_errorRecord (e : FrameError) (xs : Bytes) : readErrorRecord (errorRecord e ++ xs) = (e, xs) := by
  cases e with
  | crcMismatch received computed =>
    have hreceived : rd16 (errorRecord (.crcMismatch received computed) ++ xs) 1 = received := rd16_of_drop rfl
    have hcomputed : rd16 (errorRecord (.crcMismatch received computed) ++ xs) 3 = computed := rd16_of_drop rfl
    change (FrameError.crcMismatch _ _, xs) = _
    rw [hreceived, hcomputed]
  | cobsInvalid | truncated | tooShort | shortPayload | noDelimiter | bodyTooLarge | resourceExceeded | illegalCommand => rfl

theorem errorRecord_status_ne_ok (e : FrameError) (xs : Bytes) : byteAt (errorRecord e ++ xs) 0 ≠ statusOk := by
  change e.status ≠ 0x00
  cases e <;> simp [FrameError.status]

theorem withLength_of_fits {out : Bytes} (h : fitsLength out = true) : withLength out = lengthPrefixed out := by
  rw [withLength, lengthField_of_lt (of_decide_eq_true h), lengthPrefixed]

/-- R87: a result record can be read off the front of any bytes. -/
theorem readResultRecord_resultRecord {r : FrameResult} (h : ∀ f, r = .ok f → f.body.length < 2 ^ 32) (xs : Bytes) :
    readResultRecord (resultRecord r ++ xs) = (r, xs) := by
  cases r with
  | error e =>
    change readResultRecord (errorRecord e ++ xs) = _
    rw [readResultRecord, if_neg (errorRecord_status_ne_ok e xs), readErrorRecord_errorRecord]
  | ok frame =>
    have hfits : fitsLength frame.body = true := decide_eq_true (h frame rfl)
    have hstatus : byteAt (resultRecord (.ok frame) ++ xs) 0 = statusOk := rfl
    have htail : (resultRecord (.ok frame) ++ xs).drop 18 = lengthPrefixed frame.body ++ xs := by
      rw [← withLength_of_fits hfits]; rfl
    have hheader : slice (resultRecord (.ok frame) ++ xs) 2 18 = packHeader frame.header := rfl
    have hbody := slice_of_drop_lengthPrefixed hfits htail
    have hrest := drop_of_drop_lengthPrefixed hfits htail
    rw [readResultRecord, if_pos hstatus, hheader, unpackHeader_packHeader, hbody, hrest]
    rfl

end Sys2Proof.Machine
end

section
/-! The statements on frames and their results, the name tables and the assembler. -/

namespace Sys2Proof.Machine

/-- Settles O35: the payload is the assembled header and the body, and R111's bound on its encoding fits the length field. -/
theorem frameEncAnswers : Obligations.FrameEncAnswers := by
  intro type seq ack flags src dst body s
  have hexec : exec (.frameEnc type seq ack flags src dst body) s =
      .next (s.respond (bytesResponse (encodeFrame type seq ack flags src dst body))) := rfl
  refine ⟨fun hle => ?_, fun hgt => ?_⟩
  · have hlen := (cobsEncode_length (withCrc (packHeader (assembledHeader type seq ack flags src dst) ++ body))).2
    rw [withCrc_length, List.length_append, packHeader_length] at hlen
    have hfits : (cobsEncode (withCrc (packHeader (assembledHeader type seq ack flags src dst) ++ body))).length < 2 ^ 32 := by
      omega
    refine ⟨packHeader (assembledHeader type seq ack flags src dst) ++ body, _, ?_, rfl, hfits, ?_⟩
    · rw [packHeader_assembledHeader]
    · rw [hexec, encodeFrame_of_le hle, bytesResponse_ok_of_lt hfits]; rfl
  · rw [hexec, encodeFrame_of_gt hgt]; rfl

/-- Settles O38: each clause is one way out of the pipeline. The body's length fits its field because COBS decoding does not lengthen
the candidate. -/
theorem frameDecAnswers : Obligations.FrameDecAnswers := by
  intro w s
  refine ⟨resultRecord (decodeFrame w), rfl, fun hlast => ?_, ?_⟩
  · rw [decodeFrame_noDelimiter hlast]; rfl
  rintro y rfl
  refine ⟨fun e hdec => ?_, fun d hdec hshort => ?_, fun payload received hdec => ?_⟩
  · exact congrArg resultRecord (decodeFrame_of_error hdec)
  · exact congrArg resultRecord ((decodeFrame_of_ok hdec).trans (decodeFull_tooShort hshort))
  have hframe : decodeFrame (y ++ [0x00]) = _ := (decodeFrame_of_ok hdec).trans (decodeFull_append payload received)
  rw [hframe]
  refine ⟨fun hcrc => ?_, fun hcrc hshort => ?_, fun hcrc hlong => ?_⟩
  · rw [if_pos hcrc]; rfl
  · rw [if_neg (not_not.mpr hcrc), decodePayload_short hshort]; rfl
  · obtain ⟨n, hfield, hn⟩ := exists_lengthField (payload.drop 16)
    have hheader : packHeader (unpackHeader (payload.take 16)) = payload.take 16 :=
      packHeader_unpackHeader (by rw [List.length_take]; omega)
    have hle := cobsDecode_length_le hdec
    rw [List.length_append, le16_length] at hle
    rw [List.length_drop] at hn
    rw [if_neg (not_not.mpr hcrc), decodePayload_frame hlong]
    refine ⟨n, ?_, fun hw => hn ?_⟩
    · rw [resultRecord, withLength, hheader, hfield, List.append_assoc (payload.take 16)]; rfl
    · rw [List.length_append] at hw; omega

/-- Settles O39: what `FrameError.OfPipeline` says of each error. -/
theorem pipelineErrorsOnly : Obligations.PipelineErrorsOnly := fun _ =>
  ⟨decodeFrame_error, decodeFrame_error, decodeFrame_error, decodeFrame_error, fun _ => decodeFrame_error,
    fun _ _ => decodeFrame_error⟩

/-- Settles O41: the reader returns both results, and the bytes after them, from the same bytes. -/
theorem resultRecordsAreReadable : Obligations.ResultRecordsAreReadable := by
  intro q r xs ys hq hr hsame
  have hread : (q, xs) = (r, ys) := by
    rw [← readResultRecord_resultRecord hq xs, hsame, readResultRecord_resultRecord hr ys]
  exact Prod.mk.inj hread

/-- Settles O34: the named rows by evaluation, the others by the last branch of `typeName`. -/
theorem nameTables : Obligations.NameTables := by
  refine ⟨rfl, rfl, rfl, rfl, rfl, fun t ht => ?_, rfl, rfl, rfl, rfl, rfl⟩
  simp only [knownTypes, List.mem_cons, List.not_mem_nil, or_false, not_or] at ht
  obtain ⟨h1, h2, h3, h5, h6⟩ := ht
  rw [typeName, if_neg h1, if_neg h2, if_neg h3, if_neg h5, if_neg h6]

/-- Settles O54: CMD_FRAME_ENC is FRAME_ENC of the body of R67, where that is defined. -/
theorem pseudoInstructions : Obligations.PseudoInstructions := by
  refine ⟨fun _ => rfl, rfl, fun seq ack flags src dst cmd data hle => ?_, fun seq ack flags src dst cmd data hgt => ?_⟩
  · rw [cmdFrameEncCommand, cmdBody_of_le hle]; rfl
  · rw [cmdFrameEncCommand, cmdBody_of_gt hgt]; rfl

/-- Settles O55, by running the assembler on the lines. -/
theorem programLinesAssemble : Obligations.ProgramLinesAssemble := by
  unfold Obligations.ProgramLinesAssemble; decide +kernel

end Sys2Proof.Machine
end

section
/-! SUPPORT. The CRC step (40_crc.md R100, R103, R105): eight shifts, each linear over GF(2) and zero only at zero. Where the
high byte is clear they are a left shift. -/

namespace Sys2Proof.Machine

theorem crcShift_of_msb {c : BitVec 16} (h : c.getLsbD 15 = true) : crcShift c = (c <<< 1) ^^^ Config.crcPoly := if_pos h

theorem crcShift_of_not_msb {c : BitVec 16} (h : c.getLsbD 15 = false) : crcShift c = c <<< 1 := by
  rw [crcShift, h, if_neg Bool.false_ne_true]

theorem crcStep_eq_repeat (c : BitVec 16) (b : Byte) :
    crcStep c b = Nat.repeat crcShift 8 (c ^^^ (b.setWidth 16 <<< 8)) := rfl

/-- The shift with its test as a summand: the polynomial or 0. -/
theorem crcShift_eq_xor (c : BitVec 16) : crcShift c = (c <<< 1) ^^^ bif c.getLsbD 15 then Config.crcPoly else 0 := by
  cases h : c.getLsbD 15 with
  | false => rw [crcShift_of_not_msb h, cond_false]; exact BitVec.xor_zero.symm
  | true => rw [crcShift_of_msb h, cond_true]

/-- The polynomial, where both states add it, cancels. -/
theorem crcShift_xor (c d : BitVec 16) : crcShift (c ^^^ d) = crcShift c ^^^ crcShift d := by
  have hpoly : ∀ p q : Bool, (bif p ^^ q then Config.crcPoly else 0) =
      (bif p then Config.crcPoly else 0) ^^^ bif q then Config.crcPoly else 0 := by decide
  rw [crcShift_eq_xor, crcShift_eq_xor, crcShift_eq_xor, BitVec.getLsbD_xor, hpoly, BitVec.shiftLeft_xor_distrib]
  ac_rfl

theorem repeat_crcShift_xor (n : Nat) (c d : BitVec 16) :
    Nat.repeat crcShift n (c ^^^ d) = Nat.repeat crcShift n c ^^^ Nat.repeat crcShift n d := by
  induction n with
  | zero => rfl
  | succ n ih => simp only [Nat.repeat, ih, crcShift_xor]

/-- While the bits that reach the top are clear, the polynomial is not added. -/
theorem repeat_crcShift_of_clear {n : Nat} {c : BitVec 16} (hn : n ≤ 16)
    (h : ∀ i, 16 - n ≤ i → c.getLsbD i = false) : Nat.repeat crcShift n c = c <<< n := by
  induction n with
  | zero => exact (BitVec.shiftLeft_zero c).symm
  | succ n ih =>
    have htop : (c <<< n).getLsbD 15 = false := by
      rw [BitVec.getLsbD_shiftLeft, h (15 - n) (by omega), Bool.and_false]
    have hrec : Nat.repeat crcShift n c = c <<< n := ih (by omega) fun i hi => h i (by omega)
    rw [Nat.repeat, hrec, crcShift_of_not_msb htop, BitVec.shiftLeft_add]

/-- A shift loses nothing: the bit it drops comes back as bit 0 of the polynomial. -/
theorem crcShift_ne_zero {c : BitVec 16} (hc : c ≠ 0) : crcShift c ≠ 0 := by
  intro h0
  have hbit (i : Nat) : (crcShift c).getLsbD i = false := by rw [h0]; exact BitVec.getLsbD_zero
  cases hmsb : c.getLsbD 15 with
  | true =>
    have hlow := hbit 0
    rw [crcShift_of_msb hmsb] at hlow
    simp [Config.crcPoly] at hlow
  | false =>
    refine hc (BitVec.eq_of_getElem_eq fun i hi => ?_)
    obtain rfl | hlt : i = 15 ∨ i + 1 < 16 := by omega
    · simpa using hmsb
    · have hnext := hbit (i + 1)
      rw [crcShift_of_not_msb hmsb] at hnext
      simpa [hlt] using hnext

theorem repeat_crcShift_ne_zero {c : BitVec 16} (hc : c ≠ 0) (n : Nat) : Nat.repeat crcShift n c ≠ 0 := by
  induction n with
  | zero => exact hc
  | succ n ih => exact crcShift_ne_zero ih

/-- R103: a CRC step is linear over GF(2) in the state and the byte. -/
theorem crcStep_xor (c d : BitVec 16) (a b : Byte) : crcStep (c ^^^ d) (a ^^^ b) = crcStep c a ^^^ crcStep d b := by
  have hbyte : (a ^^^ b).setWidth 16 <<< 8 = ((a.setWidth 16 <<< 8) ^^^ (b.setWidth 16 <<< 8) : BitVec 16) := by
    rw [BitVec.setWidth_xor, BitVec.shiftLeft_xor_distrib]
  rw [crcStep_eq_repeat, crcStep_eq_repeat, crcStep_eq_repeat, ← repeat_crcShift_xor, hbyte]
  congr 1
  ac_rfl

theorem crcStep_zero_ne_zero {c : BitVec 16} (hc : c ≠ 0) : crcStep c 0 ≠ 0 := by
  rw [crcStep_eq_repeat]
  exact repeat_crcShift_ne_zero (by simpa using hc) 8

/-- A low byte, under the zero byte, comes out as the high byte. -/
theorem crcStep_setWidth_zero (x : Byte) : crcStep (x.setWidth 16) 0 = x.setWidth 16 <<< 8 := by
  have henter : x.setWidth 16 ^^^ (0 : Byte).setWidth 16 <<< 8 = x.setWidth 16 := BitVec.xor_zero
  rw [crcStep_eq_repeat, henter]
  exact repeat_crcShift_of_clear (by omega) fun i hi => by
    rw [BitVec.getLsbD_setWidth, BitVec.getLsbD_of_ge x i hi, Bool.and_false]

/-- A state is its low byte and, at bits 15:8, its high byte. -/
theorem low_xor_high (c : BitVec 16) : (c.setWidth 8).setWidth 16 ^^^ ((c >>> 8).setWidth 8).setWidth 16 <<< 8 = c := by
  refine BitVec.eq_of_getLsbD_eq fun i hi => ?_
  obtain h | h : i < 8 ∨ 8 ≤ i := by omega
  · simp [h, hi]
  · have hhigh : i - 8 < 8 := by omega
    simp [hi, hhigh, Nat.not_lt.mpr h, Nat.add_sub_cancel' h]

theorem low_shiftLeft (c : BitVec 16) : (c.setWidth 8).setWidth 16 <<< 8 = c <<< 8 := by
  refine BitVec.eq_of_getLsbD_eq fun i hi => ?_
  have hlow : i - 8 < 8 := by omega
  have hin : i - 8 < 16 := by omega
  simp [hlow, hin]

/-- A byte enters at the state's high byte, so their sum can enter the state's low byte instead. -/
theorem crcStep_eq_crcStep_low (c : BitVec 16) (b : Byte) :
    crcStep c b = crcStep ((c.setWidth 8).setWidth 16) ((c >>> 8).setWidth 8 ^^^ b) := by
  have henter : (c.setWidth 8).setWidth 16 ^^^ ((c >>> 8).setWidth 8 ^^^ b).setWidth 16 <<< 8 =
      c ^^^ b.setWidth 16 <<< 8 := by
    rw [BitVec.setWidth_xor, BitVec.shiftLeft_xor_distrib, ← BitVec.xor_assoc, low_xor_high]
  rw [crcStep_eq_repeat, crcStep_eq_repeat, henter]

/-- R105: the table holds what the high byte and the entering byte give together; the low byte only moves up. -/
theorem crcStepByTable_eq (c : BitVec 16) (b : Byte) : crcStepByTable c b = crcStep c b := by
  calc crcStepByTable c b
    _ = c <<< 8 ^^^ crcStep 0 ((c >>> 8).setWidth 8 ^^^ b) := rfl
    _ = crcStep ((c.setWidth 8).setWidth 16) 0 ^^^ crcStep 0 ((c >>> 8).setWidth 8 ^^^ b) := by
      rw [crcStep_setWidth_zero, low_shiftLeft]
    _ = crcStep ((c.setWidth 8).setWidth 16 ^^^ 0) (0 ^^^ ((c >>> 8).setWidth 8 ^^^ b)) := (crcStep_xor _ _ _ _).symm
    _ = crcStep ((c.setWidth 8).setWidth 16) ((c >>> 8).setWidth 8 ^^^ b) :=
      congrArg₂ crcStep BitVec.xor_zero BitVec.zero_xor
    _ = crcStep c b := (crcStep_eq_crcStep_low c b).symm

theorem crc16_append (xs ys : Bytes) : crc16 (xs ++ ys) = ys.foldl crcStep (crc16 xs) := List.foldl_append

theorem crc16_replicate_zero_ne_zero (n : Nat) : crc16 (List.replicate n 0x00) ≠ 0 := by
  induction n with
  | zero => decide
  | succ n ih =>
    rw [List.replicate_succ', crc16_append]
    exact crcStep_zero_ne_zero ih

theorem exec_crc16 (data : Bytes) (s : State) :
    exec (.crc16 data) s = .next (s.respond (0x00 :: le16 (crc16 data))) := rfl

end Sys2Proof.Machine
end

section
/-! The statements on the CRC (40_crc.md). -/

namespace Sys2Proof.Machine

/-- Settles O18: the command answers the fold, and no step on a zero byte takes a state other than 0 to 0. -/
theorem crc16Answers : Obligations.Crc16Answers := by
  refine ⟨exec_crc16, rfl, by decide, crc16_replicate_zero_ne_zero, fun s => ?_⟩
  have hcheck : crc16 [0x31, 0x32, 0x33, 0x34, 0x35, 0x36, 0x37, 0x38, 0x39] = 0x29B1 := by decide +kernel
  rw [exec_crc16, hcheck]; rfl

/-- Settles O19: a fold over an append, the linearity of the step, and three entries by evaluation. -/
theorem crcInPiecesAndByTable : Obligations.CrcInPiecesAndByTable :=
  ⟨crc16_append, crcStepByTable_eq, fun _ => rfl, by decide, by decide, by decide⟩

/-- Settles O20: the byte enters by exclusive or, and each shift is linear. -/
theorem crcStepIsLinear : Obligations.CrcStepIsLinear := crcStep_xor

end Sys2Proof.Machine
end

section
/-! SUPPORT. The COBS encoder group by group (41_cobs.md R110): the encoder's bytes are those of one group and then of what follows,
as the decoder reads them. -/

namespace Sys2Proof.Machine

/-! The groups of one segment. -/

theorem encodeSegment_short (form : FinalFullGroup) (last : Bool) {seg : Bytes} (h : seg.length < 254) :
    encodeSegment form last seg = groupBytes seg := by
  rw [encodeSegment, show seg.length / Config.cobsMaxRun = 0 from Nat.div_eq_of_lt h]; rfl

theorem encodeSegment_full (form : FinalFullGroup) (last : Bool) {group : Bytes} (h : group.length = 254) (rest : Bytes) :
    encodeSegment form last (group ++ rest) =
      groupBytes group ++ if last && rest.isEmpty && form == .omitted then [] else encodeSegment form last rest := by
  have hcount : (group ++ rest).length / Config.cobsMaxRun = rest.length / 254 + 1 := by
    rw [List.length_append, h]; change (254 + rest.length) / 254 = _; omega
  have htake : (group ++ rest).take Config.cobsMaxRun = group := List.take_left' h
  have hdrop : (group ++ rest).drop Config.cobsMaxRun = rest := List.drop_left' h
  rw [encodeSegment, hcount, segmentGroups, htake, hdrop, groupBytes, h]; rfl

/-! The groups of a byte string. -/

/-- R110: a last segment shorter than a full group is one group. -/
theorem encodeSegments_short_last (form : FinalFullGroup) {data : Bytes} (h : isGroupData data = true)
    (hshort : data.length ≠ 254) : encodeSegments form (splitAtZeros data) = groupBytes data := by
  obtain ⟨hle, hdata⟩ := isGroupData_iff.mp h
  rw [encodeSegments_last form hdata, encodeSegment_short form true (by omega)]

/-- R110: a segment shorter than a full group is one group, whose code stands for the 0x00 behind it. -/
theorem encodeSegments_short_more (form : FinalFullGroup) {data : Bytes} (h : isGroupData data = true)
    (hshort : data.length ≠ 254) (x : Bytes) :
    encodeSegments form (splitAtZeros (data ++ 0x00 :: x)) = groupBytes data ++ encodeSegments form (splitAtZeros x) := by
  obtain ⟨hle, hdata⟩ := isGroupData_iff.mp h
  rw [encodeSegments_more form hdata, encodeSegment_short form false (by omega)]

/-- R110: 254 bytes that are not 0x00 are one full group, and end the encoding under `Omit` when nothing follows. -/
theorem encodeSegments_full (form : FinalFullGroup) {data : Bytes} (h : isGroupData data = true) (hfull : data.length = 254)
    (x : Bytes) : encodeSegments form (splitAtZeros (data ++ x)) =
      groupBytes data ++ if x.isEmpty && form == .omitted then [] else encodeSegments form (splitAtZeros x) := by
  have hdata := (isGroupData_iff.mp h).2
  induction x using segment_induction with
  | last seg hseg =>
    rw [encodeSegments_last form (List.forall_mem_append.mpr ⟨hdata, hseg⟩), encodeSegment_full form true hfull,
      encodeSegments_last form hseg, Bool.true_and]
  | more seg x hseg _ =>
    rw [← List.append_assoc, encodeSegments_more form (List.forall_mem_append.mpr ⟨hdata, hseg⟩),
      encodeSegment_full form false hfull, encodeSegments_more form hseg]
    simp

/-- Induction along the groups the encoder makes: a byte string is a short group's data, alone or with a 0x00 and a byte string
behind it, or a full group's data and a byte string. -/
theorem group_induction {P : Bytes → Prop}
    (last : ∀ data : Bytes, isGroupData data = true → data.length ≠ 254 → P data)
    (more : ∀ data x : Bytes, isGroupData data = true → data.length ≠ 254 → P x → P (data ++ 0x00 :: x))
    (full : ∀ data x : Bytes, isGroupData data = true → data.length = 254 → P x → P (data ++ x)) (x : Bytes) : P x := by
  have hsegment : ∀ tail : Bytes, (∀ data, isGroupData data = true → data.length ≠ 254 → P (data ++ tail)) →
      ∀ seg : Bytes, (∀ b ∈ seg, b ≠ 0x00) → P (seg ++ tail) := by
    intro tail short seg hseg
    induction hn : seg.length using Nat.strong_induction_on generalizing seg with
    | _ n ih =>
      by_cases hlt : seg.length < 254
      · exact short seg (isGroupData_iff.mpr ⟨hlt.le, hseg⟩) hlt.ne
      · have htake : (seg.take 254).length = 254 := by rw [List.length_take]; omega
        have hgroup : isGroupData (seg.take 254) = true :=
          isGroupData_iff.mpr ⟨htake.le, fun b hb => hseg b (List.mem_of_mem_take hb)⟩
        have hrest : P (seg.drop 254 ++ tail) :=
          ih _ (by rw [List.length_drop]; omega) _ (fun b hb => hseg b (List.mem_of_mem_drop hb)) rfl
        rw [← List.take_append_drop 254 seg, List.append_assoc]
        exact full _ _ hgroup htake hrest
  induction x using segment_induction with
  | last seg hseg => simpa using hsegment [] (by simpa using last) seg hseg
  | more seg x hseg ih => exact hsegment (0x00 :: x) (fun data h hshort => more data x h hshort ih) seg hseg

/-- R114: the decoder reads the encoder's groups, with the implied 0x00 owed before them in front. -/
theorem cobsDecodeFrom_encodeSegments (form : FinalFullGroup) (pending : Bool) (x : Bytes) :
    cobsDecodeFrom pending 0 (encodeSegments form (splitAtZeros x)) = .ok ((if pending then [0x00] else []) ++ x) := by
  induction x using group_induction generalizing pending with
  | last data h hshort =>
    rw [encodeSegments_short_last form h hshort, ← List.append_nil (groupBytes data), cobsDecodeFrom_group pending h]
    simp [cobsDecodeFrom, Except.map]
  | more data x h hshort ih =>
    rw [encodeSegments_short_more form h hshort, cobsDecodeFrom_group pending h, bne_iff_ne.mpr hshort, ih]
    rfl
  | full data x h hfull ih =>
    rw [encodeSegments_full form h hfull, cobsDecodeFrom_group pending h]
    by_cases hend : (x.isEmpty && form == .omitted) = true
    · obtain rfl : x = [] := by simp at hend; exact hend.1
      rw [if_pos hend]; rfl
    · rw [if_neg hend, hfull, bne_self_eq_false, ih]
      rfl

/-! The encoding of what a group sequence stands for. -/

/-- R66: the one group that stands for nothing is the `01` group. -/
theorem groupsMeaning_cons_eq_nil {data : Bytes} {groups : List Bytes} (h : groupsMeaning (data :: groups) = []) :
    data = [] ∧ groups = [] := by
  rw [groupsMeaning_cons, List.append_eq_nil_iff] at h
  obtain ⟨rfl, h⟩ := h
  cases groups with
  | nil => exact ⟨rfl, rfl⟩
  | cons next groups => simp [groupsMeaningAfter] at h

/-- R110: unless a full group ends the input, the encoder writes the first group and then encodes what the others stand for. -/
theorem encodeSegments_groupsMeaning_cons {data next : Bytes} {groups : List Bytes} (h : isGroupData data = true)
    (hkept : ¬(data.length = 254 ∧ groupsMeaning (next :: groups) = [])) :
    encodeSegments .omitted (splitAtZeros (groupsMeaning (data :: next :: groups))) =
      groupBytes data ++ encodeSegments .omitted (splitAtZeros (groupsMeaning (next :: groups))) := by
  by_cases hfull : data.length = 254
  · have hnonempty : groupsMeaning (next :: groups) ≠ [] := fun hnil => hkept ⟨hfull, hnil⟩
    simpa [groupsMeaning, Config.cobsMaxRun, hfull, hnonempty] using
      encodeSegments_full .omitted h hfull (groupsMeaning (next :: groups))
  · simpa [groupsMeaning, Config.cobsMaxRun, hfull] using
      encodeSegments_short_more .omitted h hfull (groupsMeaning (next :: groups))

/-- R116: groups are the encoding of what they stand for, or end in a `01` group after a full one, and are the encoding without it. -/
theorem encodeSegments_groupsMeaning {groups : List Bytes} (hne : groups ≠ []) (h : ∀ g ∈ groups, isGroupData g = true) :
    encodeSegments .omitted (splitAtZeros (groupsMeaning groups)) = groups.flatMap groupBytes ∨
      ∃ init data : Bytes, data.length = 254 ∧ groups.flatMap groupBytes = init ++ groupBytes data ++ [0x01] ∧
        encodeSegments .omitted (splitAtZeros (groupsMeaning groups)) = init ++ groupBytes data := by
  induction groups with
  | nil => exact absurd rfl hne
  | cons data groups ih =>
    obtain ⟨hdata, hgroups⟩ := List.forall_mem_cons.mp h
    rw [List.flatMap_cons]
    cases groups with
    | nil =>
      left
      by_cases hfull : data.length = 254
      · simpa [groupsMeaning] using encodeSegments_full .omitted hdata hfull []
      · simpa [groupsMeaning] using encodeSegments_short_last .omitted hdata hfull
    | cons next groups =>
      have hrest := ih (List.cons_ne_nil _ _) hgroups
      -- A `01` group that nothing follows, after a full group, is what the encoder leaves out.
      by_cases hdropped : data.length = 254 ∧ groupsMeaning (next :: groups) = []
      · obtain ⟨hfull, hnil⟩ := hdropped
        obtain ⟨rfl, rfl⟩ := groupsMeaning_cons_eq_nil hnil
        refine .inr ⟨[], data, hfull, rfl, ?_⟩
        simpa [groupsMeaning, Config.cobsMaxRun, hfull] using encodeSegments_full .omitted hdata hfull []
      · rw [encodeSegments_groupsMeaning_cons hdata hdropped]
        obtain heq | ⟨init, final, hfinal, hbytes, henc⟩ := hrest
        · exact .inl (by rw [heq])
        · exact .inr ⟨groupBytes data ++ init, final, hfinal, by rw [hbytes]; simp only [List.append_assoc],
            by rw [henc, List.append_assoc]⟩

end Sys2Proof.Machine
end

section
/-! SUPPORT. The COBS decoder against the index loop of 41_cobs.md R112, and where it meets a 0x00. -/

namespace Sys2Proof.Machine

/-- R112, R113: CobsInvalid is the answer to a 0x00 among the bytes. -/
theorem zero_mem_of_cobsDecodeFrom_cobsInvalid {pending : Bool} {need : Nat} {y : Bytes}
    (h : cobsDecodeFrom pending need y = .error .cobsInvalid) : 0x00 ∈ y := by
  induction y generalizing pending need with
  | nil => cases need <;> cases h
  | cons b ys ih =>
    by_cases hb : b = 0x00
    · rw [hb]; exact List.mem_cons_self
    · refine List.mem_cons_of_mem _ ?_
      cases need with
      | zero => rw [cobsDecodeFrom_code pending hb, exceptMap_eq_error_iff] at h; exact ih h
      | succ need => rw [cobsDecodeFrom_data pending need hb, exceptMap_eq_error_iff] at h; exact ih h

/-- The inner loop of R112 copies the data bytes the decoder still needs; the decoder goes on behind them. -/
theorem cobsDecodeFrom_drop_eq_copy (y : Bytes) (pending : Bool) (need i : Nat) (out : Bytes) :
    (cobsDecodeFrom pending need (y.drop i)).map (out ++ ·) =
      (cobsCopyGroup y need i out).bind fun copied => (cobsDecodeFrom pending 0 (y.drop (i + need))).map (copied ++ ·) := by
  induction need generalizing i out with
  | zero => rfl
  | succ need ih =>
    rw [cobsCopyGroup]
    by_cases hend : y.length ≤ i
    · rw [if_pos hend, List.drop_eq_nil_of_le hend]; rfl
    · rw [if_neg hend, ← byteAt_cons_drop (Nat.lt_of_not_le hend)]
      by_cases hzero : byteAt y i = 0x00
      · rw [if_pos hzero, hzero, cobsDecodeFrom_zero_byte]; rfl
      · rw [if_neg hzero, cobsDecodeFrom_data pending need hzero, show i + (need + 1) = i + 1 + need by omega, ← ih]
        cases cobsDecodeFrom pending need (y.drop (i + 1)) <;> simp [Except.map]

/-- One turn of the outer loop of R112 on a code byte: the inner loop, and then the outer loop behind the group. -/
theorem cobsDecodeLoop_code {y : Bytes} {i : Nat} (hi : i < y.length) (hcode : byteAt y i ≠ 0x00) (fuel : Nat) (out : Bytes) :
    cobsDecodeLoop y (fuel + 1) i out = (cobsCopyGroup y ((byteAt y i).toNat - 1) (i + 1) out).bind fun copied =>
      cobsDecodeLoop y fuel (i + (byteAt y i).toNat)
        (if byteAt y i ≠ 0xFF ∧ i + (byteAt y i).toNat < y.length then copied ++ [0x00] else copied) := by
  rw [cobsDecodeLoop, if_neg (Nat.not_le.mpr hi)]
  simp only [if_neg hcode]
  cases cobsCopyGroup y ((byteAt y i).toNat - 1) (i + 1) out <;> rfl

/-- R112: from index `i` on the outer loop gives what the decoder gives. The loop has already put out the implied 0x00 that the
decoder still owes. -/
theorem cobsDecodeLoop_eq (y : Bytes) (pending : Bool) (fuel i : Nat) (out : Bytes) (hfuel : y.length ≤ i + fuel) :
    cobsDecodeLoop y fuel i (if pending = true ∧ i < y.length then out ++ [0x00] else out) =
      (cobsDecodeFrom pending 0 (y.drop i)).map (out ++ ·) := by
  induction fuel generalizing pending i out with
  | zero =>
    rw [cobsDecodeLoop, if_neg (by omega), List.drop_eq_nil_of_le (by omega)]
    simp [cobsDecodeFrom, Except.map]
  | succ fuel ih =>
    by_cases hend : y.length ≤ i
    · rw [cobsDecodeLoop, if_pos hend, if_neg (by omega), List.drop_eq_nil_of_le hend]
      simp [cobsDecodeFrom, Except.map]
    · have hi : i < y.length := Nat.lt_of_not_le hend
      rw [← byteAt_cons_drop hi]
      by_cases hcode : byteAt y i = 0x00
      · rw [cobsDecodeLoop, if_neg hend]
        simp only [if_pos hcode]
        rw [hcode, cobsDecodeFrom_zero_byte]; rfl
      · have hpos : (byteAt y i).toNat ≠ 0 := fun hzero => hcode (BitVec.eq_of_toNat_eq hzero)
        have hnext : i + 1 + ((byteAt y i).toNat - 1) = i + (byteAt y i).toNat := by omega
        have howed : (if pending = true ∧ i < y.length then out ++ [0x00] else out) =
            out ++ (if pending then [0x00] else []) := by cases pending <;> simp [hi]
        calc cobsDecodeLoop y (fuel + 1) i (if pending = true ∧ i < y.length then out ++ [0x00] else out)
          _ = (cobsCopyGroup y ((byteAt y i).toNat - 1) (i + 1) (out ++ if pending then [0x00] else [])).bind fun copied =>
              (cobsDecodeFrom (byteAt y i != 0xFF) 0 (y.drop (i + (byteAt y i).toNat))).map (copied ++ ·) := by
            rw [howed, cobsDecodeLoop_code hi hcode]
            refine congrArg _ (funext fun copied => ?_)
            simpa only [bne_iff_ne] using ih (byteAt y i != 0xFF) (i + (byteAt y i).toNat) copied (by omega)
          _ = (cobsDecodeFrom (byteAt y i != 0xFF) ((byteAt y i).toNat - 1) (y.drop (i + 1))).map
              ((out ++ if pending then [0x00] else []) ++ ·) := by
            rw [cobsDecodeFrom_drop_eq_copy, hnext]
          _ = (cobsDecodeFrom pending 0 (byteAt y i :: y.drop (i + 1))).map (out ++ ·) := by
            rw [cobsDecodeFrom_code pending hcode]
            cases cobsDecodeFrom (byteAt y i != 0xFF) ((byteAt y i).toNat - 1) (y.drop (i + 1)) <;> simp [Except.map]

end Sys2Proof.Machine
end

section
/-! The statements on full groups, the round trip and the decoder's input (41_cobs.md). -/

namespace Sys2Proof.Machine

/-- Settles O23: the full group comes off, and what is left is nothing, one short group, or two empty ones. -/
theorem cobsFullGroups : Obligations.CobsFullGroups := by
  intro seg b hlen hseg hb
  have hgroup : isGroupData seg = true := isGroupData_iff.mpr ⟨hlen.le, hseg⟩
  have hbytes : groupBytes seg = [0xFF] ++ seg := by rw [groupBytes, hlen]; rfl
  have hfull : ∀ form x, cobsEncodeWith form (seg ++ x) = [0xFF] ++ seg ++
      ((if x.isEmpty && form == .omitted then [] else encodeSegments form (splitAtZeros x)) ++ [0x00]) := fun form x => by
    rw [cobsEncodeWith, encodeSegments_full form hgroup hlen, hbytes, List.append_assoc]; rfl
  have hone : encodeSegments .omitted (splitAtZeros [b]) = [0x02, b] :=
    encodeSegments_short_last .omitted (isGroupData_iff.mpr ⟨by simp, by simpa using hb⟩) (by simp)
  have halone : ∀ form, cobsEncodeWith form seg = cobsEncodeWith form (seg ++ []) := fun _ => by rw [List.append_nil]
  refine ⟨(halone .omitted).trans (hfull .omitted []), (halone .emitted).trans (hfull .emitted []), ?_, hfull .omitted [0x00]⟩
  exact (hfull .omitted [b]).trans (by rw [hone]; rfl)

/-- Settles O24: the delimiter comes off, and the decoder reads the encoder's groups. -/
theorem cobsDecodesWhatItEncodes : Obligations.CobsDecodesWhatItEncodes := by
  intro form x
  rw [← List.dropLast_eq_take, cobsEncodeWith, List.dropLast_concat]
  exact cobsDecodeFrom_encodeSegments form false x

/-- Settles O26: the loop from index 0, where no 0x00 is owed; every turn takes a byte or more. -/
theorem cobsDecodeIsTheIndexLoop : Obligations.CobsDecodeIsTheIndexLoop := by
  intro y
  have hloop := cobsDecodeLoop_eq y false y.length 0 [] (by omega)
  rw [List.drop_zero] at hloop
  rw [cobsDecode]
  cases hdec : cobsDecodeFrom false 0 y <;> simpa [hdec, Except.map] using hloop.symm

/-- Settles O28: what decodes is a group sequence; its encoding is that sequence, or leaves out a `01` group after a full one. -/
theorem cobsNonCanonicalInputs : Obligations.CobsNonCanonicalInputs := by
  intro y x h
  obtain ⟨groups, hgroups, rfl, rfl⟩ := cobsDecode_eq_ok_iff.mp h
  by_cases hne : groups = []
  · exact .inl (by rw [hne]; rfl)
  have hdelim : ∀ z, encodeSegments .omitted (splitAtZeros (groupsMeaning groups)) = z →
      cobsEncode (groupsMeaning groups) = z ++ [0x00] := fun z hz => by rw [← hz]; rfl
  obtain heq | ⟨init, data, hfull, hbytes, henc⟩ := encodeSegments_groupsMeaning hne hgroups
  · exact .inr (.inl (hdelim _ heq))
  · have hlen : (init ++ groupBytes data).length = init.length + 255 := by simp [groupBytes, hfull]
    refine .inr (.inr ⟨init ++ groupBytes data, hbytes, hdelim _ henc, by omega, ?_⟩)
    rw [hlen, Nat.add_sub_cancel, groupBytes, hfull]
    simp

/-- Settles O29: CobsInvalid would need a 0x00. -/
theorem zeroFreeBytesAreNeverCobsInvalid : Obligations.ZeroFreeBytesAreNeverCobsInvalid := by
  intro y e hy h
  obtain rfl | rfl := cobsDecodeFrom_error h
  · rfl
  · exact absurd rfl (hy _ (zero_mem_of_cobsDecodeFrom_cobsInvalid h))

end Sys2Proof.Machine
end

section
/-! The statements on the header commands (42_header.md): what HDR_PACK and HDR_UNPACK answer, and the inverses of R134. -/

namespace Sys2Proof.Machine

/-- R131: HDR_PACK only responds, with the packed header. -/
theorem exec_hdrPack (h : Header) (s : State) : exec (.hdrPack h) s = .next (s.respond (okResponse (packHeader h))) := rfl

/-- R133: HDR_UNPACK only responds; by R134 the fields after the Info byte are the operand's bytes again. -/
theorem exec_hdrUnpack {v : Bytes} (h : v.length = 16) (s : State) :
    exec (.hdrUnpack v) s = .next (s.respond (okResponse (infoOf (unpackHeader v) :: v))) := by
  have hexec : exec (.hdrUnpack v) s =
      .next (s.respond (okResponse (infoOf (unpackHeader v) :: packHeader (unpackHeader v)))) := rfl
  rw [hexec, packHeader_unpackHeader h]

/-- R60: the packed header, byte by byte. -/
theorem packHeader_bytes (h : Header) : packHeader h =
    [h.magic.extractLsb' 0 8, h.magic.extractLsb' 8 8, h.version, h.type,
      h.seq.extractLsb' 0 8, h.seq.extractLsb' 8 8, h.seq.extractLsb' 16 8, h.seq.extractLsb' 24 8,
      h.ack.extractLsb' 0 8, h.ack.extractLsb' 8 8, h.ack.extractLsb' 16 8, h.ack.extractLsb' 24 8,
      h.flags, h.src, h.dst, h.reserved] := rfl

/-- R132: the Info byte reads the type, the magic and the version alone. -/
theorem infoOf_congr {h g : Header} (htype : h.type = g.type) (hmagic : h.magic = g.magic)
    (hversion : h.version = g.version) : infoOf h = infoOf g := by
  simp only [infoOf, unknownTypeFlag, magicMismatchFlag, versionMismatchFlag, htype, hmagic, hversion]

/-- Settles O32: each direction reads field by field what the other wrote. -/
theorem packAndUnpackAreInverse : Obligations.PackAndUnpackAreInverse :=
  ⟨unpackHeader_packHeader, fun _ => packHeader_unpackHeader⟩

/-- Settles O31: the operand comes back by R134; each corner case evaluates the Info byte of one header. -/
theorem hdrUnpackAnswers : Obligations.HdrUnpackAnswers := by
  refine ⟨fun v s hv => exec_hdrUnpack hv s, fun h htype hmagic hversion => ?_, by decide +kernel,
    fun h htype hmagic hversion => ?_, fun s => ?_, fun s => ?_⟩
  · have hinfo : infoOf ⟨0xA15A, 1, 9, 0, 0, 0, 0, 0, 0⟩ = 0x01 := by decide
    exact (infoOf_congr htype hmagic hversion).trans hinfo
  · have hinfo : infoOf ⟨0x1234, 7, 2, 0, 0, 0, 0, 0, 0⟩ = 0x06 := by decide
    exact (infoOf_congr htype hmagic hversion).trans hinfo
  · have hinfo : infoOf (unpackHeader (List.replicate 16 0x00)) = 0x07 := by decide
    rw [exec_hdrUnpack List.length_replicate, hinfo]; rfl
  · have hinfo : infoOf (unpackHeader [0x5A, 0xA1, 0x01, 0x02, 0x01, 0, 0, 0, 0, 0, 0, 0, 0x01, 0xC0, 0xA1, 0]) = 0x00 := by
      decide
    rw [exec_hdrUnpack rfl, hinfo]; rfl

/-- Settles O30: the bytes of the packed header, and its example by evaluation. -/
theorem hdrPackAnswers : Obligations.HdrPackAnswers := by
  refine ⟨fun h s => ?_, fun s => ?_⟩
  · rw [exec_hdrPack, packHeader_bytes]; rfl
  · have hbytes : packHeader ⟨0xA15A, 1, 2, 1, 0, 1, 0xC0, 0xA1, 0⟩ =
        [0x5A, 0xA1, 0x01, 0x02, 0x01, 0x00, 0x00, 0x00, 0x00, 0x00, 0x00, 0x00, 0x01, 0xC0, 0xA1, 0x00] := by decide
    rw [exec_hdrPack, hbytes]; rfl

end Sys2Proof.Machine
end

section
/-! The statements on wire frames (43_frame_assembler.md R142, R143), with the pipeline of R150 read backwards from the assembler:
each stage of the decoder undoes one stage of the encoder. -/

namespace Sys2Proof.Machine

/-- R140: the one way to a wire frame. -/
theorem encodeFrame_eq_ok_iff {type : Byte} {seq ack : BitVec 32} {flags src dst : Byte} {body wire : Bytes} :
    encodeFrame type seq ack flags src dst body = .ok wire ↔ body.length ≤ 65535 ∧
      cobsEncode (withCrc (packHeader (assembledHeader type seq ack flags src dst) ++ body)) = wire := by
  by_cases hle : body.length ≤ 65535
  · simp [encodeFrame_of_le hle, hle]
  · simp [encodeFrame_of_gt (Nat.lt_of_not_le hle), hle]

/-- R114, R150: the pipeline gets to its step 3 with the bytes the assembler encoded. -/
theorem decodeFrame_cobsEncode (x : Bytes) : decodeFrame (cobsEncode x) = decodeFull x :=
  decodeFrame_of_ok (cobsDecodeFrom_encodeSegments Config.cobsFinalFullGroup false x)

/-- R106, R150: the CRC the assembler appends is the one the pipeline computes. -/
theorem decodeFull_withCrc (payload : Bytes) : decodeFull (withCrc payload) = decodePayload payload := by
  rw [withCrc, decodeFull_append, if_neg (not_not.mpr rfl)]

/-- R134, R150: a packed header and a body come apart again. -/
theorem decodePayload_packHeader_append (h : Header) (body : Bytes) :
    decodePayload (packHeader h ++ body) = .ok { header := h, body := body, info := infoOf h } := by
  rw [decodePayload_frame (by simp), List.take_left' (packHeader_length h), List.drop_left' (packHeader_length h),
    unpackHeader_packHeader]

/-- R132, R140: the assembler's magic and version match, so the type alone decides the Info byte. -/
theorem infoOf_assembledHeader (type : Byte) (seq ack : BitVec 32) (flags src dst : Byte) :
    infoOf (assembledHeader type seq ack flags src dst) = if type ∈ knownTypes then 0x00 else 0x01 := by
  have hmagic : magicMismatchFlag (assembledHeader type seq ack flags src dst) = 0#8 := if_pos rfl
  have hversion : versionMismatchFlag (assembledHeader type seq ack flags src dst) = 0#8 := if_pos rfl
  rw [infoOf, hmagic, hversion, BitVec.or_zero, BitVec.or_zero]; rfl

/-- Settles O36: a wire frame is a COBS encoding, of 16 header bytes, the body and 2 CRC bytes. -/
theorem wireFrameShape : Obligations.WireFrameShape := by
  intro type seq ack flags src dst body wire hwire
  obtain ⟨-, rfl⟩ := encodeFrame_eq_ok_iff.mp hwire
  obtain ⟨⟨y, hy, hzeroFree⟩, -, hlen⟩ :=
    cobsEncodedShape (withCrc (packHeader (assembledHeader type seq ack flags src dst) ++ body))
  refine ⟨y, hy, hzeroFree, ?_⟩
  have hfull : (withCrc (packHeader (assembledHeader type seq ack flags src dst) ++ body)).length = 18 + body.length := by
    rw [withCrc_length, List.length_append, packHeader_length]; omega
  rw [hy, hfull, List.length_append, List.length_singleton] at hlen
  omega

/-- Settles O37: COBS, the CRC and the header are undone in turn. -/
theorem frameRoundTrip : Obligations.FrameRoundTrip := by
  intro type seq ack flags src dst body hbody
  refine ⟨_, encodeFrame_of_le hbody, ?_⟩
  rw [decodeFrame_cobsEncode, decodeFull_withCrc, decodePayload_packHeader_append, infoOf_assembledHeader]
  rfl

end Sys2Proof.Machine
end

section
/-! SUPPORT. The CRC against one byte changed (44_stream_reader.md R162): no shift, step or string of steps takes two states to
one, so no change of one byte is lost. -/

namespace Sys2Proof.Machine

theorem repeat_crcShift_injective (n : Nat) : Function.Injective (Nat.repeat crcShift n) := by
  intro c d h
  by_contra hne
  apply repeat_crcShift_ne_zero (mt BitVec.xor_eq_zero_iff.mp hne) n
  rw [repeat_crcShift_xor, h, BitVec.xor_self]; rfl

/-- R100: a step on one byte takes different states to different states. -/
theorem crcStep_injective_state (b : Byte) : Function.Injective (crcStep · b) := fun _ _ h =>
  (BitVec.xor_left_inj _).mp (repeat_crcShift_injective 8 h)

/-- R100: a step from one state takes different bytes to different states. -/
theorem crcStep_injective_byte (c : BitVec 16) : Function.Injective (crcStep c) := by
  intro a b h
  have henter : a.setWidth 16 <<< 8 = (b.setWidth 16 <<< 8 : BitVec 16) :=
    (BitVec.xor_right_inj c).mp (repeat_crcShift_injective 8 h)
  bv_omega

theorem foldl_crcStep_injective (xs : Bytes) : Function.Injective fun c => xs.foldl crcStep c := by
  induction xs with
  | nil => exact fun _ _ h => h
  | cons b xs ih => exact ih.comp (crcStep_injective_state b)

/-- R162: strings that differ in one byte have different CRCs. -/
theorem crc16_ne_of_byte_ne (pre post : Bytes) {a b : Byte} (h : a ≠ b) :
    crc16 (pre ++ a :: post) ≠ crc16 (pre ++ b :: post) := by
  rw [crc16_append, crc16_append]
  exact fun heq => h (crcStep_injective_byte _ (foldl_crcStep_injective post heq))

/-- A flipped bit changes its byte and no other. -/
theorem flipBit_split {xs : Bytes} {i j : Nat} (hi : i < xs.length) (hj : j < 8) : ∃ (pre post : Bytes) (a b : Byte),
    flipBit xs i j = pre ++ a :: post ∧ xs = pre ++ b :: post ∧ a ≠ b := by
  refine ⟨xs.take i, xs.drop (i + 1), _, xs[i], List.modify_eq_take_cons_drop hi, ?_, ?_⟩
  · rw [← List.drop_eq_getElem_cons hi, List.take_append_drop]
  · intro h
    have hbit := congrArg (fun b : Byte => b.getLsbD j) h
    simp [hj] at hbit

theorem flipBit_append_left {xs : Bytes} (ys : Bytes) {i : Nat} (j : Nat) (hi : i < xs.length) :
    flipBit (xs ++ ys) i j = flipBit xs i j ++ ys := by
  have hi' : i < (xs ++ ys).length := by rw [List.length_append]; omega
  simp only [flipBit, List.modify_eq_take_cons_drop hi, List.modify_eq_take_cons_drop hi', List.getElem_append_left hi,
    List.take_append_of_le_length hi.le, List.drop_append_of_le_length hi, List.append_assoc, List.cons_append]

theorem flipBit_append_right {xs : Bytes} (ys : Bytes) {i : Nat} (j : Nat) (hi : xs.length ≤ i) :
    flipBit (xs ++ ys) i j = xs ++ flipBit ys (i - xs.length) j := by
  simp only [flipBit, List.modify_eq_take_drop, List.take_append, List.drop_append, List.take_of_length_le hi,
    List.drop_eq_nil_of_le hi, List.append_assoc, List.nil_append]

@[simp] theorem flipBit_length (xs : Bytes) (i j : Nat) : (flipBit xs i j).length = xs.length := List.length_modify ..

theorem flipBit_ne {xs : Bytes} {i j : Nat} (hi : i < xs.length) (hj : j < 8) : flipBit xs i j ≠ xs := by
  obtain ⟨pre, post, a, b, hflip, hxs, hne⟩ := flipBit_split hi hj
  rw [hflip, hxs]
  exact fun h => hne (List.cons.inj (List.append_cancel_left h)).1

theorem crc16_flipBit_ne {xs : Bytes} {i j : Nat} (hi : i < xs.length) (hj : j < 8) :
    crc16 (flipBit xs i j) ≠ crc16 xs := by
  obtain ⟨pre, post, a, b, hflip, hxs, hne⟩ := flipBit_split hi hj
  rw [hflip, hxs]
  exact crc16_ne_of_byte_ne pre post hne

/-- R150: any two bytes but the CRC of the bytes before them are a CrcMismatch. -/
theorem decodeFull_crcMismatch {payload crc : Bytes} (hlen : crc.length = 2) (hne : crc ≠ le16 (crc16 payload)) :
    ∃ received computed, decodeFull (payload ++ crc) = .error (.crcMismatch received computed) := by
  obtain ⟨a, b, rfl⟩ := List.length_eq_two.mp hlen
  rw [← le16_rd16 a b []] at hne ⊢
  rw [decodeFull_append, if_pos fun heq => hne (congrArg le16 heq)]
  exact ⟨_, _, rfl⟩

end Sys2Proof.Machine
end

section
/-! SUPPORT. The reader over a whole operand (44_stream_reader.md R153 to R161): FEED of an append, the bytes of a frame that
fits the limit, where each result comes from, and how many there are. -/

namespace Sys2Proof.Machine

/-- R154: FEED only responds, with the results of its bytes, and leaves the ACC they leave. -/
theorem exec_feed {data : Bytes} {s : State} {acc : Bytes} {results : List FrameResult}
    (h : feedBytes s.limit s.acc data = (acc, results)) :
    exec (.feed data) s = .next ((s.setAcc acc).respond (feedResponse results)) := by
  simp [exec, execFeed, h]

/-- R156: the bytes of `b` find the ACC that `a` leaves, and their results come after those of `a`. -/
theorem feedBytes_append (limit : Option Nat) (acc a b : Bytes) : feedBytes limit acc (a ++ b) =
    ((feedBytes limit (feedBytes limit acc a).1 b).1,
      (feedBytes limit acc a).2 ++ (feedBytes limit (feedBytes limit acc a).1 b).2) := by
  induction a generalizing acc with
  | nil => rfl
  | cons x xs ih => rw [List.cons_append, feedBytes_cons, ih, feedBytes_cons, List.append_assoc]

theorem feedBytes_singleton (limit : Option Nat) (acc : Bytes) (b : Byte) : feedBytes limit acc [b] = feedByte limit acc b := by
  rw [feedBytes_cons, feedBytes_nil, List.append_nil]

/-- R153: the byte `b` between `p` and `q`. -/
theorem feedBytes_append_cons (limit : Option Nat) (acc p : Bytes) (b : Byte) (q : Bytes) :
    feedBytes limit acc (p ++ b :: q) =
      ((feedBytes limit (feedByte limit (feedBytes limit acc p).1 b).1 q).1,
        (feedBytes limit acc p).2 ++ (feedByte limit (feedBytes limit acc p).1 b).2 ++
          (feedBytes limit (feedByte limit (feedBytes limit acc p).1 b).1 q).2) := by
  rw [feedBytes_append, feedBytes_cons, List.append_assoc]

/-- R157: at a 0x00 the candidate is decoded, and the bytes after it find an empty ACC. -/
theorem feedBytes_append_zero (limit : Option Nat) (acc p q : Bytes) : feedBytes limit acc (p ++ [0x00] ++ q) =
    ((feedBytes limit [] q).1,
      (feedBytes limit acc p).2 ++ [decodeFrame ((feedBytes limit acc p).1 ++ [0x00])] ++ (feedBytes limit [] q).2) := by
  rw [List.append_assoc, List.singleton_append, feedBytes_append_cons, feedByte_delimiter]

theorem feedBytes_concat_zero (limit : Option Nat) (acc p : Bytes) : feedBytes limit acc (p ++ [0x00]) =
    ([], (feedBytes limit acc p).2 ++ [decodeFrame ((feedBytes limit acc p).1 ++ [0x00])]) := by
  simpa using feedBytes_append_zero limit acc p []

theorem boundedBy_none (acc : Bytes) : BoundedBy none acc := fun _ h => nomatch h

/-- R155: bytes other than 0x00 are appended as long as they fit the limit. -/
theorem feedBytes_of_zeroFree {limit : Option Nat} {acc data : Bytes} (hdata : ∀ b ∈ data, b ≠ 0x00)
    (hfits : BoundedBy limit (acc ++ data)) : feedBytes limit acc data = (acc ++ data, []) := by
  induction data generalizing acc with
  | nil => rw [feedBytes_nil, List.append_nil]
  | cons b bs ih =>
    obtain ⟨hb, hbs⟩ := List.forall_mem_cons.mp hdata
    have hbelow : limitReached limit acc = false := by
      cases limit with
      | none => rfl
      | some l =>
        have hle := hfits l rfl
        rw [List.length_append, List.length_cons] at hle
        rw [← Bool.not_eq_true, limitReached_some]
        omega
    rw [← List.singleton_append, ← List.append_assoc] at hfits
    rw [feedBytes_cons, feedByte_appends hb hbelow, ih hbs hfits, List.append_assoc]; rfl

/-- R155, R161: a wire frame within the limit, from an empty ACC, is one result, its decode. -/
theorem feedBytes_wire {type : Byte} {seq ack : BitVec 32} {flags src dst : Byte} {body wire : Bytes} {limit : Option Nat}
    (hwire : encodeFrame type seq ack flags src dst body = .ok wire) (hfits : ∀ l, limit = some l → wire.length ≤ l + 1)
    (data : Bytes) : feedBytes limit [] (wire ++ data) =
      ((feedBytes limit [] data).1, decodeFrame wire :: (feedBytes limit [] data).2) := by
  obtain ⟨y, rfl, hzeroFree, -⟩ := wireFrameShape _ _ _ _ _ _ _ _ hwire
  have hbounded : BoundedBy limit ([] ++ y) := fun l hl => by simpa using hfits l hl
  rw [feedBytes_append_zero, feedBytes_of_zeroFree hzeroFree hbounded]; rfl

/-- R153: what a byte adds to the results. -/
theorem feedByte_results (limit : Option Nat) (acc : Bytes) (b : Byte) : (feedByte limit acc b).2 =
    if b = 0x00 then [decodeFrame (acc ++ [0x00])]
    else if limitReached limit acc = true then [.error .resourceExceeded] else [] := by
  obtain ⟨hb, hfed⟩ | ⟨hb, hreached, hfed⟩ | ⟨hb, hreached, hfed⟩ := feedByte_cases limit acc b <;> rw [hfed]
  · rw [if_pos hb]
  · rw [if_neg hb, if_pos hreached]
  · rw [if_neg hb, if_neg (by simp [hreached])]

theorem feedBytes_zeroFree {limit : Option Nat} {acc : Bytes} (hacc : ∀ b ∈ acc, b ≠ 0x00) (data : Bytes) :
    ∀ b ∈ (feedBytes limit acc data).1, b ≠ 0x00 := by
  refine feedBytes_keeps (P := fun acc => ∀ b ∈ acc, b ≠ 0x00) (by simp) ?_ data hacc
  intro acc b hb _ hzero
  simpa [or_imp, forall_and] using ⟨hzero, hb⟩

theorem exists_eq_append_le16 {d : Bytes} (h : 2 ≤ d.length) :
    ∃ (payload : Bytes) (received : BitVec 16), d = payload ++ le16 received := by
  have hlast := le16_rd16_append_drop (xs := d) (o := d.length - 2) (by omega)
  rw [Nat.sub_add_cancel h, List.drop_length, List.append_nil] at hlast
  exact ⟨d.take (d.length - 2), rd16 d (d.length - 2), by rw [hlast, List.take_append_drop]⟩

theorem decodePayload_ne_noDelimiter (payload : Bytes) : decodePayload payload ≠ .error .noDelimiter := by
  obtain hshort | hlong := Nat.lt_or_ge payload.length 16
  · rw [decodePayload_short hshort]; simp
  · rw [decodePayload_frame hlong]; simp

/-- R150: past its step 1 the pipeline does not report NoDelimiter. -/
theorem decodeFull_ne_noDelimiter (d : Bytes) : decodeFull d ≠ .error .noDelimiter := by
  obtain hshort | hlong := Nat.lt_or_ge d.length 2
  · rw [decodeFull_tooShort hshort]; simp
  · obtain ⟨payload, received, rfl⟩ := exists_eq_append_le16 hlong
    rw [decodeFull_append]
    split
    · simp
    · exact decodePayload_ne_noDelimiter payload

theorem decodeFrame_concat_zero_ne_noDelimiter (y : Bytes) : decodeFrame (y ++ [0x00]) ≠ .error .noDelimiter := by
  cases hdec : cobsDecode y with
  | ok d => exact (decodeFrame_of_ok hdec).trans_ne (decodeFull_ne_noDelimiter d)
  | error e => exact (decodeFrame_of_error hdec).trans_ne (by simp)

/-- R153: each result is a ResourceExceeded or the decode of a candidate. -/
theorem feedBytes_result {limit : Option Nat} {acc data : Bytes} {r : FrameResult} (h : r ∈ (feedBytes limit acc data).2) :
    r = .error .resourceExceeded ∨
      ∃ p q : Bytes, data = p ++ [0x00] ++ q ∧ r = decodeFrame ((feedBytes limit acc p).1 ++ [0x00]) := by
  induction data generalizing acc with
  | nil => cases h
  | cons b bs ih =>
    rw [feedBytes_cons, List.mem_append] at h
    obtain hfirst | hrest := h
    · obtain ⟨rfl, hfed⟩ | ⟨-, -, hfed⟩ | ⟨-, -, hfed⟩ := feedByte_cases limit acc b <;> rw [hfed] at hfirst
      · exact .inr ⟨[], bs, rfl, List.mem_singleton.mp hfirst⟩
      · exact .inl (List.mem_singleton.mp hfirst)
      · cases hfirst
    · obtain hexceeded | ⟨p, q, rfl, hr⟩ := ih hrest
      · exact .inl hexceeded
      · exact .inr ⟨b :: p, q, rfl, hr⟩

/-- R159: the results are one for each 0x00 byte and one for each byte discarded. -/
theorem feedBytes_results_length (limit : Option Nat) (acc data : Bytes) :
    (feedBytes limit acc data).2.length = data.count 0x00 + discardedBytes limit acc data := by
  induction data generalizing acc with
  | nil => rfl
  | cons b bs ih =>
    have hfirst : (feedByte limit acc b).2.length = (if b = 0x00 then 1 else 0) +
        if b ≠ 0x00 ∧ limitReached limit acc = true then 1 else 0 := by
      by_cases hb : b = 0#8 <;> by_cases hreached : limitReached limit acc = true <;>
        simp [feedByte_results, hb, hreached]
    rw [feedBytes_cons, List.length_append, ih, List.count_cons, discardedBytes_cons, hfirst]
    simp only [beq_iff_eq]
    omega

/-- R159: no decode is a ResourceExceeded, so these are the bytes discarded. -/
theorem feedBytes_countP_resourceExceeded (limit : Option Nat) (acc data : Bytes) :
    (feedBytes limit acc data).2.countP (fun r => r = .error .resourceExceeded) = discardedBytes limit acc data := by
  induction data generalizing acc with
  | nil => rfl
  | cons b bs ih =>
    have hdecode : decodeFrame (acc ++ [0#8]) ≠ .error .resourceExceeded := fun h => decodeFrame_error h
    rw [feedBytes_cons, List.countP_append, ih, discardedBytes_cons, feedByte_results]
    by_cases hb : b = 0#8 <;> by_cases hreached : limitReached limit acc = true <;> simp [hb, hreached, hdecode]

end Sys2Proof.Machine
end

section
/-! The statements on the stream reader (44_stream_reader.md). -/

namespace Sys2Proof.Machine

/-- Settles O40: a flipped bit of the payload changes the CRC the pipeline computes; one of the CRC changes the CRC it receives. -/
theorem oneFlippedBitIsACrcMismatch : Obligations.OneFlippedBitIsACrcMismatch := by
  intro payload i j hi hj
  rw [decodeFrame_cobsEncode, withCrc]
  rw [withCrc_length] at hi
  obtain hpayload | hcrc := Nat.lt_or_ge i payload.length
  · rw [flipBit_append_left _ j hpayload, decodeFull_append, if_pos (crc16_flipBit_ne hpayload hj).symm]
    exact ⟨_, _, rfl⟩
  · have hbyte : i - payload.length < (le16 (crc16 payload)).length := by rw [le16_length]; omega
    rw [flipBit_append_right _ j hcrc]
    exact decodeFull_crcMismatch (flipBit_length _ _ _) (flipBit_ne hbyte hj)

/-- Settles O44, from the bytes of an append. -/
theorem feedComposes : Obligations.FeedComposes := by
  intro a b s
  rcases hfirst : feedBytes s.limit s.acc a with ⟨mid, ra⟩
  rcases hsecond : feedBytes s.limit mid b with ⟨last, rb⟩
  have hboth : feedBytes s.limit s.acc (a ++ b) = (last, ra ++ rb) := by rw [feedBytes_append, hfirst, hsecond]
  exact ⟨mid, last, ra, rb, _, rfl, exec_feed hfirst, exec_feed hsecond, exec_feed hboth⟩

/-- Settles O45: the ACC is empty at the 0x00. -/
theorem readerRecoversAtEveryDelimiter : Obligations.ReaderRecoversAtEveryDelimiter := by
  intro limit acc a b
  rw [feedBytes_append_zero, feedBytes_concat_zero]
  exact ⟨rfl, rfl⟩

/-- Settles O46: a candidate is an ACC with no 0x00 and the delimiter, so neither step 1 of the pipeline nor CobsInvalid of the
decoder can end it. -/
theorem feedCandidatesHoldOneZero : Obligations.FeedCandidatesHoldOneZero := by
  intro limit acc data hacc
  refine ⟨feedBytes_zeroFree hacc data, ?_, fun r hr => ?_⟩
  · rintro p q rfl
    have hzeroFree := feedBytes_zeroFree (limit := limit) hacc p
    refine ⟨hzeroFree, by rw [feedBytes_append_zero], decodeFrame_concat_zero_ne_noDelimiter _, fun e he => ?_⟩
    exact ⟨zeroFreeBytesAreNeverCobsInvalid _ e hzeroFree he, decodeFrame_of_error he⟩
  · obtain rfl | ⟨p, q, hdata, rfl⟩ := feedBytes_result hr
    · exact ⟨by simp, by simp, .inl rfl⟩
    · exact ⟨decodeFrame_concat_zero_ne_noDelimiter _, decodeFrame_error, .inr ⟨p, q, hdata, rfl⟩⟩

/-- Settles O47: the two counts byte by byte, and the results of a byte at its place. -/
theorem feedResultCount : Obligations.FeedResultCount := by
  intro limit acc data
  refine ⟨feedBytes_results_length limit acc data, feedBytes_countP_resourceExceeded limit acc data, ?_, ?_⟩
  · rintro rfl
    rw [feedBytes_results_length, discardedBytes_none, Nat.add_zero]
  · rintro p q b rfl
    rw [feedBytes_append_cons, feedByte_results, feedBytes_append, feedBytes_singleton]

/-- Settles O48: `p` is without the delimiter, so all of it is appended, and the rest ends the frame. -/
theorem feedOfAPrefix : Obligations.FeedOfAPrefix := by
  intro type seq ack flags src dst body p q s hwire hq hacc hmax hcap
  have hlimit : s.limit = none := by rw [State.limit, hmax, hcap]; exact effectiveLimit_zero none
  obtain ⟨y, hy, hzeroFree, -⟩ := wireFrameShape _ _ _ _ _ _ _ _ hwire
  obtain ⟨rest, b, rfl⟩ := (List.eq_nil_or_concat' q).resolve_left hq
  obtain ⟨rfl, hb⟩ := List.append_inj' ((List.append_assoc p rest [b]).trans hy) rfl
  obtain rfl := List.singleton_inj.mp hb
  obtain ⟨hp, hrest⟩ := List.forall_mem_append.mp hzeroFree
  have hprefix : feedBytes s.limit s.acc p = (p, []) := by
    rw [hlimit, hacc, feedBytes_of_zeroFree hp (boundedBy_none _), List.nil_append]
  have hframe : feedBytes s.limit p (rest ++ [0x00]) = ([], [decodeFrame (p ++ (rest ++ [0x00]))]) := by
    rw [hlimit, feedBytes_concat_zero, feedBytes_of_zeroFree hrest (boundedBy_none _), List.append_assoc, List.nil_append]
  exact ⟨_, rfl, exec_feed hprefix, exec_feed hframe⟩

/-- Settles O49: the first frame leaves an empty ACC for the second. -/
theorem feedOfTwoFrames : Obligations.FeedOfTwoFrames := by
  intro type type' seq ack seq' ack' flags src dst flags' src' dst' body body' v w s hv hw hacc hfits
  have hfed : feedBytes s.limit s.acc (v ++ w) = ([], [decodeFrame v, decodeFrame w]) := by
    have hsecond := feedBytes_wire hw (fun l hl => (hfits l hl).2) []
    rw [List.append_nil] at hsecond
    rw [hacc, feedBytes_wire hv (fun l hl => (hfits l hl).1), hsecond]; rfl
  exact exec_feed hfed

end Sys2Proof.Machine
end

section
/-! SUPPORT. What each control command answers (45_control.md R170 to R173), ACC_LEN of R30, when a FEED leaves ACC empty, and the
records that answer IllegalCommand. -/

namespace Sys2Proof.Machine

/-- R170: RDR_CLEAR empties ACC and responds with the status alone. -/
theorem exec_rdrClear (s : State) : exec .rdrClear s = .next ((s.setAcc []).respond [0x00]) := rfl

/-- R171: MAXACC_WR writes the register and responds with the status alone. -/
theorem exec_maxaccWr (value : BitVec 32) (s : State) :
    exec (.maxaccWr value) s = .next ((s.setMaxAccum value).respond [0x00]) := rfl

/-- R172: MAXACC_RD only responds, with the register. -/
theorem exec_maxaccRd (s : State) : exec .maxaccRd s = .next (s.respond (0x00 :: le32 s.maxAccum)) := rfl

/-- R173: STATUS_RD only responds, with ACC_LEN. -/
theorem exec_statusRd (s : State) : exec .statusRd s = .next (s.respond (0x00 :: le32 s.accLen)) := rfl

/-- R30: the saturated length fits 32 bits, so ACC_LEN does not wrap. -/
theorem accLen_toNat (s : State) : s.accLen.toNat = min s.acc.length 0xFFFFFFFF := by
  rw [State.accLen, BitVec.toNat_ofNat, Nat.mod_eq_of_lt (by omega)]

theorem accLen_of_acc_nil {s : State} (h : s.acc = []) : s.accLen = 0 := by
  rw [State.accLen, h]; rfl

/-- R155: a ResourceExceeded at the last byte leaves ACC empty. -/
theorem feedBytes_concat_exceeds {limit : Option Nat} {acc p : Bytes} {b : Byte} (hb : b ≠ 0x00)
    (h : limitReached limit (feedBytes limit acc p).1 = true) : feedBytes limit acc (p ++ [b]) =
      ([], (feedBytes limit acc p).2 ++ [.error .resourceExceeded]) := by
  rw [feedBytes_append, feedBytes_singleton, feedByte_exceeds hb h]

/-- R83, R174: a record that is not legal does not decode. -/
theorem exists_illegal_of_not_legal {bytes : Bytes} (h : recordIsLegal bytes = false) : ∃ why, decode bytes = .illegal why := by
  cases hdec : decode bytes with
  | command i => rw [(legalRecordsExactly bytes).mp ⟨i, hdec⟩] at h; cases h
  | illegal why => exact ⟨why, rfl⟩

end Sys2Proof.Machine
end

section
/-! The statements on the control commands and on illegal records (45_control.md). -/

namespace Sys2Proof.Machine

/-- Settles O6: such a record does not decode, so the step is the branch that answers IllegalCommand. -/
theorem illegalRecordAnswersIllegalCommand : Obligations.IllegalRecordAnswersIllegalCommand := by
  intro s bytes rest hin hlegal
  obtain ⟨why, hdec⟩ := exists_illegal_of_not_legal hlegal
  exact step_of_illegal hin hdec

/-- Settles O50, from what RDR_CLEAR answers. -/
theorem rdrClearAnswers : Obligations.RdrClearAnswers := exec_rdrClear

/-- Settles O51: the value is the register from then on, so the byte step finds it reached by an ACC that is longer, and the
delimiter does not look at it. -/
theorem maxaccWrAnswers : Obligations.MaxaccWrAnswers := by
  intro value s
  refine ⟨(s.setMaxAccum value).respond [0x00], rfl, exec_maxaccWr value s, ?_, fun hne hlt b hb => ?_, ?_⟩
  · rintro rfl
    exact effectiveLimit_zero s.accCapacity
  · exact exec_feed_singleton (feedByte_exceeds hb (limitReached_limit_iff.mpr (.inl ⟨hne, hlt.le⟩)))
  · exact exec_feed_singleton (feedByte_delimiter _ s.acc)

/-- Settles O52: the register's four bytes, and their values for the register 0 and for 0x12345678. -/
theorem maxaccRdAnswers : Obligations.MaxaccRdAnswers := by
  refine ⟨exec_maxaccRd, exec_maxaccRd State.reset, fun s => ⟨_, exec_maxaccWr _ s, ?_⟩⟩
  have hbytes : le32 0x12345678 = [0x78, 0x56, 0x34, 0x12] := by decide
  rw [exec_maxaccRd, State.respond_maxAccum, State.setMaxAccum_maxAccum, hbytes]; rfl

/-- Settles O53: ACC is empty after each of the four, and the length of the empty ACC is 0. -/
theorem statusRdAnswers : Obligations.StatusRdAnswers := by
  refine ⟨fun s => ⟨s.accLen, accLen_toNat s, exec_statusRd s⟩, fun s t hempties hexec => ?_⟩
  have hacc : s.acc = [] := by
    obtain rfl | ⟨u, hclear⟩ | ⟨data, u, hfeed⟩ | ⟨data, b, u, hb, hreached, hfeed⟩ := hempties
    · exact State.reset_acc
    · cases hclear; rfl
    · cases (exec_feed (feedBytes_concat_zero u.limit u.acc data)).symm.trans hfeed; rfl
    · cases (exec_feed (feedBytes_concat_exceeds hb hreached)).symm.trans hfeed; rfl
  rw [exec_statusRd, accLen_of_acc_nil hacc] at hexec
  cases hexec; rfl

end Sys2Proof.Machine
end

section
/-! The statement that sets RDR_CLEAR beside reset (70_reset_and_hazards.md R222). -/

namespace Sys2Proof.Machine

/-- R220: a reset writes the reset values to ACC and MAX_ACCUM. -/
theorem blockReset_eq (s : State) : blockReset s = .next ((s.setAcc []).setMaxAccum 0) := rfl

/-- Settles O8: RDR_CLEAR writes only ACC and then responds, which keeps both; a reset writes MAX_ACCUM as well. -/
theorem resetAndClearDifferOnlyInTheLimit : Obligations.ResetAndClearDifferOnlyInTheLimit := by
  intro s
  refine ⟨_, _, exec_rdrClear s, blockReset_eq s, ?cleared, ?kept, ?wiped, ?zeroed⟩
  case cleared => rw [State.respond_acc, State.setAcc_acc]
  case kept => rw [State.respond_maxAccum, State.setAcc_maxAccum]
  case wiped => rw [State.setMaxAccum_acc, State.setAcc_acc]
  case zeroed => rw [State.setMaxAccum_maxAccum]

end Sys2Proof.Machine
end
